-- ==== Sys2Proof/Word.lean ====
section
/-! DEFINITION. The fixed widths of the block: 00_scope.md rules R8, R10 and R11. -/

namespace Sys2Proof

/-- A register, an `f32` pattern, a `u32` or an address: `RW`, `FLEN`, `IW` and `AW` are all 32 (rule R8). -/
abbrev Word := BitVec 32

/-- A `u8`: a byte of memory, a luma or chroma sample, a colour channel (rule R11). -/
abbrev Byte := BitVec 8

/-- A `u16`: a raw depth sample (rules R7 and R106). -/
abbrev Half := BitVec 16

end Sys2Proof
end

