-- ==== Sys2Proof/Config.lean ====
section
/-! DEFINITION. What the spec leaves to the implementation or the platform: the free values, which have no body, and
the shape of a platform (92_eei_decisions.md, "Parameters left OPEN"). -/

namespace Sys2Proof

/-- The three rounded binary32 operations of rule R12 that can answer a NaN. -/
inductive FpOp where
  | sub
  | mul
  | div
  deriving DecidableEq, Repr

/-- Which NaN an operation answers: the sign bit, and the non-zero fraction less one (so every NaN is an answer and
nothing else is). The spec says only that it is a function of the operation and its operand patterns (rule R12,
93_implementation_defined.md U6). No body: nothing can be proved of its value. Log 3. -/
opaque Config.nanChoice : FpOp → Word → Word → Bool × Fin 8388607

/-- The `k`-th unspecified word the host reads from a `CTX_*` register while no context exists
(rule R33, U9). No body. Log 4. -/
opaque Config.freeWord : Nat → Word

/-- The `k`-th byte whose value would depend on the order of a run's overlapping accesses (rule R283, U5).
No body. Log 10. -/
opaque Config.freeByte : Nat → Byte

/-- A stretch of system memory that exists on the platform, and whether its memory system admits the engine's reads
and writes there (rule R77, U23). -/
structure Region where
  base : Nat
  size : Nat
  readable : Bool
  writable : Bool
  deriving DecidableEq, Repr

/-- The platform's two parameters left OPEN: the register block's place, as the number of its 128-byte slot (so
`UNPROJ_BASE` is 128-byte aligned by construction, rule R21), and the admitted memory (rule R81). Log 5. -/
structure Platform where
  block : BitVec 25
  regions : List Region
  deriving DecidableEq, Repr

end Sys2Proof
end

