-- ==== Sys2Proof/Syntax.lean ====
section
/-! DEFINITION. The instructions: one constructor per row of spec/opcode_table.json (rules R2, R101 and R112). None
carries an operand: every operand comes from a fixed register, a run field or a working value (rules R53 and R104). -/

namespace Sys2Proof

/-- The four commands (format `CMDW`), then the nine stage operations (format `STAGE`). -/
inductive Instr where
  | nop
  | create
  | unproject
  | destroy
  | depthFetch
  | linearise
  | backproject
  | colorDefault
  | lumaFetch
  | chromaFetch
  | yuv2rgb
  | packRgba
  | emit
  deriving DecidableEq, Repr

end Sys2Proof
end

