-- ==== Sys2Proof/Machine/State.lean ====
section
/-! DEFINITION. The state of the system: 10_state.md rules R20 to R60, as plain data, and its value after reset. -/

namespace Sys2Proof.Machine

/-- Why the model stops. No instruction does: every fault of the block itself is an exception it takes, which is a
next state (rule R240). -/
inductive Fault where
  /-- The host writes a byte the launched run reads, or touches a byte it writes, before it has seen `BUSY = 0`
  (rules R84 and R277, U3): a race whose outcome the spec does not fix. Raised by the host's memory accesses. Safe:
  the machine stops where hardware goes on. Log 11. -/
  | hostRace
  deriving DecidableEq, Repr

/-- What the model gives no meaning to. -/
inductive Refusal where
  /-- An instruction that has no meaning yet; raised by `exec` only. Safe. -/
  | notModelled (mnemonic : String)
  /-- A host access that touches the register block and is not an aligned 32-bit access of one register: "not a move
  the host has" (rule R21, U12). Raised by the host's accesses. Safe. Log 12. -/
  | hostRegisterAccess
  /-- A host access to memory the platform does not have, or beyond the address space, whose effect is the
  platform's (rules R56 and R81). Raised by the host's accesses. Safe. Log 13. -/
  | hostMemoryAbsent
  deriving DecidableEq, Repr

/-- `STATUS` (rule R24): the five flags and the cause. The reserved bits are not stored; they read as zero. -/
structure Status where
  valid : Bool
  busy : Bool
  done : Bool
  createFail : Bool
  err : Bool
  cause : BitVec 4
  deriving DecidableEq, Repr

/-- The staging registers `CFG_*` (rule R25), each an `f32` pattern. -/
structure Staging where
  ppx : Word
  ppy : Word
  fx : Word
  fy : Word
  depthUnit : Word
  minMargin : Word
  maxMargin : Word
  deriving DecidableEq, Repr

/-- The context `ctx.*` (rule R27), each field an `f32` pattern. -/
structure Context where
  ppx : Word
  ppy : Word
  fx : Word
  fy : Word
  depthUnit : Word
  minDepth : Word
  maxDepth : Word
  deriving DecidableEq, Repr

/-- The ten descriptor values: the registers `FRM_*` and `OUT_*` but `OUT_USED` (rules R34 to R43), and the same ten
in a run's snapshot (rule R50). Of `FRM_FLAGS` only bit 0 is stored (rule R38). -/
structure Descriptor where
  width : Word
  height : Word
  depthStride : Word
  depthAddr : Word
  hasColor : Bool
  colorAddr : Word
  colorStride : Word
  pointsAddr : Word
  colorsAddr : Word
  capacity : Word
  deriving DecidableEq, Repr

/-- The run state: the snapshot (rule R50) and the scan counters (rule R52). -/
structure Run where
  desc : Descriptor
  r : Word
  c : Word
  n : Word
  deriving DecidableEq, Repr

/-- The working values of one pixel step (rule R53). They do not survive the step: between steps they are
`Pixel.clear`. Log 8. -/
structure Pixel where
  s : Half
  d : Word
  x : Word
  y : Word
  z : Word
  y8 : Byte
  u : Byte
  v : Byte
  r : Byte
  g : Byte
  b : Byte
  w : Word
  deriving DecidableEq, Repr

/-- The widths of a host access, in bytes. -/
inductive Width where
  | byte
  | half
  | word
  deriving DecidableEq, Repr

/-- One turn of the system's schedule (rules R9 and R20): who moves, and for the outside world what it does. -/
inductive Turn where
  /-- The engine's turn (rule R153). -/
  | engine
  /-- The host writes the low bytes of `v` at bus address `a` (rules R9 and R46). -/
  | hostWrite (a : Word) (width : Width) (v : Word)
  /-- The host reads at bus address `a` (rules R9 and R140). -/
  | hostRead (a : Word) (width : Width)
  /-- The platform applies reset; of the pixel in progress `written` of the four writes of its entry have been made
  (rules R270 and R271). Log 9. -/
  | reset (written : Nat)
  deriving DecidableEq, Repr

/-- The state of the system (rule R20), and after it the model's own fields. -/
structure State where
  /-- `STATUS` (rule R24). -/
  status : Status
  /-- `CFG_*` (rule R25). -/
  cfg : Staging
  /-- The context, read through `CTX_*` (rule R27). -/
  ctx : Context
  /-- `FRM_*` and `OUT_*` but `OUT_USED` (rules R34 to R43). -/
  desc : Descriptor
  /-- `OUT_USED` (rule R44). -/
  used : Word
  /-- The run's snapshot and counters (rules R50 to R52). -/
  run : Run
  /-- The working values of the pixel step (rule R53). -/
  px : Pixel
  /-- System memory (rule R56): addresses strictly rising, no entry equal to what an unlisted address reads as. -/
  mem : List Host.Cell
  /-- The platform's parameters, which no step writes. Log 5. -/
  platform : Platform
  /-- The turns still to come; when there is none it is the engine's turn. Log 6. -/
  turns : List Turn
  /-- What the host's last read returned (rule R140). Log 6. -/
  hostData : Word
  /-- The snapshots, without repeats, of the runs launched since the host last read `STATUS` with `BUSY = 0`: the runs
  whose buffers the host must leave alone (rule R84). Log 11. -/
  exclusive : List Descriptor
  /-- How many free values have been drawn. Log 4. -/
  free : Nat
  deriving DecidableEq, Repr

/-- `STATUS` after reset: all zero (rules R60 and R270). -/
def Status.reset : Status where
  valid := false
  busy := false
  done := false
  createFail := false
  err := false
  cause := 0#4

/-- The staging registers after reset: unspecified by rule R60; zero. DESIGN CHOICE, unsafe: log 1. -/
def Staging.reset : Staging where
  ppx := 0#32
  ppy := 0#32
  fx := 0#32
  fy := 0#32
  depthUnit := 0#32
  minMargin := 0#32
  maxMargin := 0#32

/-- The context after reset: unspecified by rule R60; zero. DESIGN CHOICE, unsafe: log 1. -/
def Context.reset : Context where
  ppx := 0#32
  ppy := 0#32
  fx := 0#32
  fy := 0#32
  depthUnit := 0#32
  minDepth := 0#32
  maxDepth := 0#32

/-- The descriptor registers after reset: unspecified by rule R60; zero. DESIGN CHOICE, unsafe: log 1. -/
def Descriptor.reset : Descriptor where
  width := 0#32
  height := 0#32
  depthStride := 0#32
  depthAddr := 0#32
  hasColor := false
  colorAddr := 0#32
  colorStride := 0#32
  pointsAddr := 0#32
  colorsAddr := 0#32
  capacity := 0#32

/-- The run state after reset: unspecified and not in use by rule R60; zero. DESIGN CHOICE, unsafe: log 1. -/
def Run.reset : Run where
  desc := Descriptor.reset
  r := 0#32
  c := 0#32
  n := 0#32

/-- The working values between two steps: none are held (rule R53). DESIGN CHOICE zero: log 8. -/
def Pixel.clear : Pixel where
  s := 0#16
  d := 0#32
  x := 0#32
  y := 0#32
  z := 0#32
  y8 := 0#8
  u := 0#8
  v := 0#8
  r := 0#8
  g := 0#8
  b := 0#8
  w := 0#32

/-- A platform for `State.reset`: the register block in the last 128 bytes and memory everywhere else. DESIGN CHOICE,
the spec leaves both parameters open: log 5. -/
def resetPlatform : Platform where
  block := 0x1FFFFFF#25
  regions := [⟨0, 2 ^ 32, true, true⟩]

/-- The system right after reset (rules R60, R270 and R272): the block is idle and empty, nothing is listed in memory,
and no turn of the host is waiting. -/
def State.reset : State where
  status := Status.reset
  cfg := Staging.reset
  ctx := Context.reset
  desc := Descriptor.reset
  used := 0#32
  run := Run.reset
  px := Pixel.clear
  mem := []
  platform := resetPlatform
  turns := []
  hostData := 0#32
  exclusive := []
  free := 0

/-! One named update per field, so that lemmas about a step speak of fields and never of record updates. -/

def State.setStatus (s : State) (v : Status) : State := { s with status := v }
def State.setCfg (s : State) (v : Staging) : State := { s with cfg := v }
def State.setCtx (s : State) (v : Context) : State := { s with ctx := v }
def State.setDesc (s : State) (v : Descriptor) : State := { s with desc := v }
def State.setUsed (s : State) (v : Word) : State := { s with used := v }
def State.setRun (s : State) (v : Run) : State := { s with run := v }
def State.setPx (s : State) (v : Pixel) : State := { s with px := v }
def State.setMem (s : State) (v : List Host.Cell) : State := { s with mem := v }
def State.setTurns (s : State) (v : List Turn) : State := { s with turns := v }
def State.setHostData (s : State) (v : Word) : State := { s with hostData := v }
def State.setExclusive (s : State) (v : List Descriptor) : State := { s with exclusive := v }
def State.setFree (s : State) (v : Nat) : State := { s with free := v }

end Sys2Proof.Machine
end

