-- ==== Sys2Proof/Machine/Flags.lean ====
section
/-! DEFINITION. The flags: the word `STATUS` reads as, the fault causes and what recording one does to the flags.
10_state.md rules R24 and R55, 60_exceptions.md rules R240 and R241. No arithmetic writes a flag (rule R55). -/

namespace Sys2Proof.Machine

/-- The five faults of the block (rule R241). -/
inductive FaultCause where
  | badCmd
  | busyWrite
  | noContext
  | accessFault
  | misaligned
  deriving DecidableEq, Repr

/-- The code of a fault in `STATUS.CAUSE` (rule R241). -/
def causeCode : FaultCause → BitVec 4
  | .badCmd => 1#4
  | .busyWrite => 2#4
  | .noContext => 3#4
  | .accessFault => 4#4
  | .misaligned => 5#4

/-- A flag as one bit. -/
def flagBit (b : Bool) : BitVec 1 := BitVec.ofBool b

/-- The word a read of `STATUS` gives (rule R24): CAUSE in [11:8], ERR, CREATE_FAIL, DONE, BUSY, VALID in [4:0], the
rest zero. -/
def statusWord (t : Status) : Word :=
  0#20 ++ t.cause ++ 0#3 ++ flagBit t.err ++ flagBit t.createFail ++ flagBit t.done ++ flagBit t.busy
    ++ flagBit t.valid

/-- What a fault does to the flags (rule R240): the first one is recorded and sticks; a run in progress stops; `DONE`
stays as it is. -/
def statusFault (k : FaultCause) (t : Status) : Status :=
  let recorded := if t.err then t else { t with err := true, cause := causeCode k }
  { recorded with busy := false }

/-- The flags after an accepted UNPROJECT (rule R150). -/
def statusLaunch (t : Status) : Status := { t with done := false, busy := true }

/-- The flags after the completion of a run (rule R157). -/
def statusComplete (t : Status) : Status := { t with busy := false, done := true }

/-- The flags after a CREATE that succeeds (rule R132). -/
def statusCreated (t : Status) : Status := { t with valid := true, createFail := false }

/-- The flags after a CREATE on the taken slot (rule R133). -/
def statusCreateFailed (t : Status) : Status := { t with createFail := true }

/-- The flags after DESTROY (rule R136). -/
def statusDestroyed (t : Status) : Status := { t with valid := false }

end Sys2Proof.Machine
end

