-- ==== Sys2Proof/Machine/Operands.lean ====
section
/-! DEFINITION. Where operands stand: the register map (10_state.md rules R21, R22 and R46) and the effective addresses
of a run with the bytes it touches (20_memory.md rules R71 to R75 and R82). All address arithmetic is unbounded
(rule R11), so an address is a `Nat`. -/

namespace Sys2Proof.Machine

/-- The registers by name (rule R22); the five reserved offsets read alike (rule R45). -/
inductive Reg where
  | ctrl
  | status
  | cfgPpx
  | cfgPpy
  | cfgFx
  | cfgFy
  | cfgDepthUnit
  | cfgMinMargin
  | cfgMaxMargin
  | ctxPpx
  | ctxPpy
  | ctxFx
  | ctxFy
  | ctxDepthUnit
  | ctxMinDepth
  | ctxMaxDepth
  | frmWidth
  | frmHeight
  | frmDepthStride
  | frmDepthAddr
  | frmFlags
  | frmColorAddr
  | frmColorStride
  | outPointsAddr
  | outColorsAddr
  | outCapacity
  | outUsed
  | reserved
  deriving DecidableEq, Repr

/-- The register at a word offset of the block (rule R22); the offset is its byte offset divided by 4. -/
def regAtWord : Nat → Reg
  | 0 => .ctrl
  | 1 => .status
  | 2 => .cfgPpx
  | 3 => .cfgPpy
  | 4 => .cfgFx
  | 5 => .cfgFy
  | 6 => .cfgDepthUnit
  | 7 => .cfgMinMargin
  | 8 => .cfgMaxMargin
  | 10 => .ctxPpx
  | 11 => .ctxPpy
  | 12 => .ctxFx
  | 13 => .ctxFy
  | 14 => .ctxDepthUnit
  | 15 => .ctxMinDepth
  | 16 => .ctxMaxDepth
  | 18 => .frmWidth
  | 19 => .frmHeight
  | 20 => .frmDepthStride
  | 21 => .frmDepthAddr
  | 22 => .frmFlags
  | 23 => .frmColorAddr
  | 24 => .frmColorStride
  | 26 => .outPointsAddr
  | 27 => .outColorsAddr
  | 28 => .outCapacity
  | 29 => .outUsed
  | _ => .reserved

/-- The register at a byte offset that is a multiple of 4 (rules R21 and R22). -/
def regAt (offset : Nat) : Reg := regAtWord (offset / 4)

/-- The byte address of the register block, `UNPROJ_BASE` (rule R21). -/
def unprojBase (p : Platform) : Nat := 128 * p.block.toNat

/-- The byte address lies in the register block (rule R21). -/
def inBlock (p : Platform) (a : Nat) : Bool := decide (unprojBase p ≤ a) && decide (a < unprojBase p + 128)

/-- How many bytes a host access of a width moves. -/
def widthBytes : Width → Nat
  | .byte => 1
  | .half => 2
  | .word => 4

/-! The addresses of rules R71 to R75, of pixel `(r, c)` and output index `n` of a run with snapshot `d`. -/

/-- `depth_sample_addr(r, c)` (rule R71). -/
def depthSampleAddr (d : Descriptor) (r c : Nat) : Nat := d.depthAddr.toNat + r * d.depthStride.toNat + 2 * c

/-- `luma_addr(r, c)` (rule R72). -/
def lumaAddr (d : Descriptor) (r c : Nat) : Nat := d.colorAddr.toNat + r * d.colorStride.toNat + c

/-- `chroma_base` (rule R73). -/
def chromaBase (d : Descriptor) : Nat := d.colorAddr.toNat + d.colorStride.toNat * d.height.toNat

/-- `chroma_index(r, c)`, a count of two-byte pairs, with floor divisions (rule R73, 90_conflicts.md C2 and C3). -/
def chromaIndex (d : Descriptor) (r c : Nat) : Nat := (r / 2) * (d.colorStride.toNat / 2) + c / 2

/-- `u_addr(r, c)` (rule R73). -/
def uAddr (d : Descriptor) (r c : Nat) : Nat := chromaBase d + 2 * chromaIndex d r c

/-- `v_addr(r, c)` (rule R73): U comes first. -/
def vAddr (d : Descriptor) (r c : Nat) : Nat := uAddr d r c + 1

/-- `point_addr(n)` (rule R74): 12 bytes an entry. -/
def pointAddr (d : Descriptor) (n : Nat) : Nat := d.pointsAddr.toNat + 12 * n

/-- `color_addr(n)` (rule R75): 4 bytes an entry. -/
def colorEntryAddr (d : Descriptor) (n : Nat) : Nat := d.colorsAddr.toNat + 4 * n

/-! The bytes a run touches (rule R82). -/

/-- `N = min(capacity, W * H)`, the number of pixels a run visits (rules R82 and R151). -/
def pixelCount (d : Descriptor) : Nat := min d.capacity.toNat (d.width.toNat * d.height.toNat)

/-- The byte addresses pixel `(r, c)` reads, in the order of rule R79: the depth sample's two, and with a colour plane
the luma byte and the chroma pair's two. -/
def pixelBytes (d : Descriptor) (r c : Nat) : List Nat :=
  [depthSampleAddr d r c, depthSampleAddr d r c + 1] ++
    (if d.hasColor then [lumaAddr d r c, uAddr d r c, vAddr d r c] else [])

/-- The byte is one the run reads, that is, one of a visited pixel (rules R80 and R82). -/
def runReadsByte (d : Descriptor) (a : Nat) : Bool :=
  decide (∃ k, k < pixelCount d ∧ a ∈ pixelBytes d (k / d.width.toNat) (k % d.width.toNat))

/-- The byte lies in the entries of the points array the run writes (rule R82). -/
def inPointEntries (d : Descriptor) (a : Nat) : Bool :=
  decide (d.pointsAddr.toNat ≤ a) && decide (a < d.pointsAddr.toNat + 12 * pixelCount d)

/-- The byte lies in the entries of the colours array the run writes (rule R82). -/
def inColorEntries (d : Descriptor) (a : Nat) : Bool :=
  decide (d.colorsAddr.toNat ≤ a) && decide (a < d.colorsAddr.toNat + 4 * pixelCount d)

/-- The byte is one the run writes (rule R82). -/
def runWritesByte (d : Descriptor) (a : Nat) : Bool := inPointEntries d a || inColorEntries d a

end Sys2Proof.Machine
end

