-- ==== Sys2Proof/Machine/Ops.lean ====
section
/-! DEFINITION. The named operations every meaning is written over: system memory, the engine's memory port
(20_memory.md rules R76 to R79, 00_scope.md rule R14), taking a fault (60_exceptions.md rule R240) and leaving it
(rule R250), the acceptance of a host write (rule R247), and the registers (10_state.md rules R22 to R46). -/

namespace Sys2Proof.Machine

/-! ## System memory (rule R56) -/

/-- What an address with no entry reads as. The spec gives memory no contents after power-on (rule R60): zero.
DESIGN CHOICE, unsafe: log 2. -/
def memoryFill : Byte := 0#8

/-- The byte at an address. -/
def Memory.read : List Host.Cell → Nat → Byte
  | [], _ => memoryFill
  | (k, v) :: rest, a => if a < k then memoryFill else if a = k then v else Memory.read rest a

/-- Memory with one byte written, in canonical form again: writing `memoryFill` leaves no entry. -/
def Memory.write : List Host.Cell → Nat → Byte → List Host.Cell
  | [], a, b => if b = memoryFill then [] else [(a, b)]
  | (k, v) :: rest, a, b =>
    if a < k then (if b = memoryFill then (k, v) :: rest else (a, b) :: (k, v) :: rest)
    else if a = k then (if b = memoryFill then rest else (a, b) :: rest)
    else (k, v) :: Memory.write rest a b

/-- The entries stand at strictly rising addresses from `lo` up, all of them 32-bit, none holding `memoryFill`. -/
def Memory.wfFrom : Nat → List Host.Cell → Bool
  | _, [] => true
  | lo, (a, b) :: rest => decide (lo ≤ a) && decide (a < 2 ^ 32) && decide (b ≠ memoryFill) && Memory.wfFrom (a + 1) rest

/-- The canonical form of memory: equal memories are equal lists. -/
def Memory.wf (m : List Host.Cell) : Bool := Memory.wfFrom 0 m

/-- Byte `i` of a word, counted from the least significant (rule R76). -/
def wordByte (v : Word) (i : Nat) : Byte := v.extractLsb' (8 * i) 8

/-- The low `n` bytes of `v` written from address `a` upward, little-endian (rules R14 and R76). -/
def Memory.writeBytes (m : List Host.Cell) (a : Nat) (v : Word) : Nat → List Host.Cell
  | 0 => m
  | n + 1 => Memory.write (Memory.writeBytes m a v n) (a + n) (wordByte v n)

/-- The `n` bytes from address `a` upward as a number, little-endian (rules R14 and R76). -/
def Memory.readBytes (m : List Host.Cell) (a : Nat) : Nat → Nat
  | 0 => 0
  | n + 1 => (Memory.read m a).toNat + 256 * Memory.readBytes m (a + 1) n

/-! ## Faults (rules R240 and R250) -/

/-- A fault is taken (rule R240): the flags record it and stop a run in progress; nothing else changes. There is no
vector, no saved counter and no mode. -/
def raise (k : FaultCause) (s : State) : State := s.setStatus (statusFault k s.status)

/-- Reset of the block, the only way out of the error state (rules R250 and R270): `STATUS` and `OUT_USED` zero, every
other register as `State.reset` has it (log 1), memory untouched. -/
def resetBlock (s : State) : State :=
  (((((((s.setStatus State.reset.status).setCfg State.reset.cfg).setCtx State.reset.ctx).setDesc State.reset.desc).setUsed
    State.reset.used).setRun State.reset.run).setPx State.reset.px).setExclusive State.reset.exclusive

/-- The first two checks on a host write (rules R46 and R247): ignored in the error state, dropped with `BusyWrite`
while a run is busy, and otherwise let through to `effect`. -/
def whenIdle (effect : State → State) (s : State) : State :=
  if s.status.err then s else if s.status.busy then raise .busyWrite s else effect s

/-! ## The engine's memory port (rules R70 and R77 to R79) -/

/-- The kinds of engine access (rule R77). -/
inductive AccessKind where
  | read
  | write
  deriving DecidableEq, Repr

/-- The stretch of memory holds the byte and admits the kind of access. -/
def regionAdmits (k : AccessKind) (a : Nat) (g : Region) : Bool :=
  decide (g.base ≤ a) && decide (a < g.base + g.size) &&
    (match k with
      | .read => g.readable
      | .write => g.writable)

/-- The byte is inside the address space, outside the register block, and admitted by the platform (rule R77). -/
def byteAdmitted (p : Platform) (k : AccessKind) (a : Nat) : Bool :=
  decide (a < 2 ^ 32) && !inBlock p a && p.regions.any (regionAdmits k a)

/-- An access of `n` bytes is admitted when each of its bytes is (rule R77). -/
def admitted (p : Platform) (k : AccessKind) (a : Nat) : Nat → Bool
  | 0 => true
  | n + 1 => byteAdmitted p k a && admitted p k (a + 1) n

/-- One byte the engine reads. A byte that the run also writes would depend on the order of accesses, which the spec
does not fix (rule R283, U5): a free value, log 10. -/
def fetchByte (a : Nat) (s : State) : Byte × State :=
  if runWritesByte s.run.desc a then (Config.freeByte s.free, s.setFree (s.free + 1))
  else (Memory.read s.mem a, s)

/-- The `n` bytes from `a` upward as a number, little-endian (rules R14 and R76). -/
def fetchBytes : Nat → Nat → State → Nat × State
  | 0, _, s => (0, s)
  | n + 1, a, s =>
    let (b, s₁) := fetchByte a s
    let (rest, s₂) := fetchBytes n (a + 1) s₁
    (b.toNat + 256 * rest, s₂)

/-- `MemRead(a, n)` (rule R14): a misaligned access first, then one that is not admitted (rules R78 and R248); such an
access is not performed. -/
def engineRead (a n : Nat) (s : State) : Except FaultCause (Nat × State) :=
  if a % n ≠ 0 then .error .misaligned
  else if admitted s.platform .read a n then .ok (fetchBytes n a s)
  else .error .accessFault

/-- `MemRead(a, n)` and then `use` of its value, or the fault (rule R15). -/
def readThen (a n : Nat) (use : Nat → State → State) (s : State) : State :=
  match engineRead a n s with
  | .ok (v, t) => use v t
  | .error k => raise k s

/-- One byte the engine writes. A byte that lies in both output arrays is written twice by the run, in an order the
spec does not fix (rule R283, U5): a free value, log 10. -/
def putByte (a : Nat) (b : Byte) (s : State) : State :=
  if inPointEntries s.run.desc a && inColorEntries s.run.desc a then
    (s.setMem (Memory.write s.mem a (Config.freeByte s.free))).setFree (s.free + 1)
  else s.setMem (Memory.write s.mem a b)

/-- A word's four bytes from `a` upward, little-endian (rule R76). -/
def putWord (a : Nat) (v : Word) (s : State) : State :=
  putByte (a + 3) (wordByte v 3) (putByte (a + 2) (wordByte v 2) (putByte (a + 1) (wordByte v 1)
    (putByte a (wordByte v 0) s)))

/-- `MemWrite(a, 4, v)` (rule R14), with the checks of rules R77 and R78 in the order of rule R248. -/
def engineWrite (a : Nat) (v : Word) (s : State) : Except FaultCause State :=
  if a % 4 ≠ 0 then .error .misaligned
  else if admitted s.platform .write a 4 then .ok (putWord a v s)
  else .error .accessFault

/-- Word writes one after another; the first that faults stops the rest (rules R230 and R249). -/
def storeWords : List (Nat × Word) → State → State
  | [], s => s
  | (a, v) :: rest, s =>
    match engineWrite a v s with
    | .ok t => storeWords rest t
    | .error k => raise k s

/-! ## Registers (rules R22 to R46) -/

/-- The context field a `CTX_*` register shows while a context exists; a value the spec does not give while none does
(rule R33), drawn from the free values (log 4). -/
def readContext (v : Word) (s : State) : Word × State :=
  if s.status.valid then (v, s) else (Config.freeWord s.free, s.setFree (s.free + 1))

/-- What a host read of a register returns (rules R22 to R45): `CTRL` and the reserved offsets read as zero, of
`FRM_FLAGS` only bit 0. The state changes only by the free value drawn. -/
def readReg (r : Reg) (s : State) : Word × State :=
  match r with
  | .ctrl => (0#32, s)
  | .status => (statusWord s.status, s)
  | .cfgPpx => (s.cfg.ppx, s)
  | .cfgPpy => (s.cfg.ppy, s)
  | .cfgFx => (s.cfg.fx, s)
  | .cfgFy => (s.cfg.fy, s)
  | .cfgDepthUnit => (s.cfg.depthUnit, s)
  | .cfgMinMargin => (s.cfg.minMargin, s)
  | .cfgMaxMargin => (s.cfg.maxMargin, s)
  | .ctxPpx => readContext s.ctx.ppx s
  | .ctxPpy => readContext s.ctx.ppy s
  | .ctxFx => readContext s.ctx.fx s
  | .ctxFy => readContext s.ctx.fy s
  | .ctxDepthUnit => readContext s.ctx.depthUnit s
  | .ctxMinDepth => readContext s.ctx.minDepth s
  | .ctxMaxDepth => readContext s.ctx.maxDepth s
  | .frmWidth => (s.desc.width, s)
  | .frmHeight => (s.desc.height, s)
  | .frmDepthStride => (s.desc.depthStride, s)
  | .frmDepthAddr => (s.desc.depthAddr, s)
  | .frmFlags => (0#31 ++ flagBit s.desc.hasColor, s)
  | .frmColorAddr => (s.desc.colorAddr, s)
  | .frmColorStride => (s.desc.colorStride, s)
  | .outPointsAddr => (s.desc.pointsAddr, s)
  | .outColorsAddr => (s.desc.colorsAddr, s)
  | .outCapacity => (s.desc.capacity, s)
  | .outUsed => (s.used, s)
  | .reserved => (0#32, s)

/-- What an accepted host write leaves in the registers (rules R22, R38, R45 and R247, points 3 and 4): a read-write
register stores the word, a read-only or reserved one ignores it. `CTRL` stores nothing (rule R23). -/
def storeReg (r : Reg) (w : Word) (s : State) : State :=
  match r with
  | .ctrl => s
  | .status => s
  | .cfgPpx => s.setCfg { s.cfg with ppx := w }
  | .cfgPpy => s.setCfg { s.cfg with ppy := w }
  | .cfgFx => s.setCfg { s.cfg with fx := w }
  | .cfgFy => s.setCfg { s.cfg with fy := w }
  | .cfgDepthUnit => s.setCfg { s.cfg with depthUnit := w }
  | .cfgMinMargin => s.setCfg { s.cfg with minMargin := w }
  | .cfgMaxMargin => s.setCfg { s.cfg with maxMargin := w }
  | .ctxPpx => s
  | .ctxPpy => s
  | .ctxFx => s
  | .ctxFy => s
  | .ctxDepthUnit => s
  | .ctxMinDepth => s
  | .ctxMaxDepth => s
  | .frmWidth => s.setDesc { s.desc with width := w }
  | .frmHeight => s.setDesc { s.desc with height := w }
  | .frmDepthStride => s.setDesc { s.desc with depthStride := w }
  | .frmDepthAddr => s.setDesc { s.desc with depthAddr := w }
  | .frmFlags => s.setDesc { s.desc with hasColor := w.getLsbD 0 }
  | .frmColorAddr => s.setDesc { s.desc with colorAddr := w }
  | .frmColorStride => s.setDesc { s.desc with colorStride := w }
  | .outPointsAddr => s.setDesc { s.desc with pointsAddr := w }
  | .outColorsAddr => s.setDesc { s.desc with colorsAddr := w }
  | .outCapacity => s.setDesc { s.desc with capacity := w }
  | .outUsed => s
  | .reserved => s

end Sys2Proof.Machine
end

