-- ==== Sys2Proof/Machine/Color.lean ====
section
/-! DEFINITION. The colour stages COLOR_DEFAULT, LUMA_FETCH, CHROMA_FETCH, YUV2RGB and PACK_RGBA: 43_color_fusion.md
rules R200 to R208. -/

namespace Sys2Proof.Machine

/-- COLOR_DEFAULT (rule R201): white. -/
def execColorDefault (s : State) : Host.Outcome State Fault Refusal :=
  .next (s.setPx { s.px with r := 255#8, g := 255#8, b := 255#8 })

/-- LUMA_FETCH (rule R203). -/
def execLumaFetch (s : State) : Host.Outcome State Fault Refusal :=
  .next (readThen (lumaAddr s.run.desc s.run.r.toNat s.run.c.toNat) 1
    (fun v t => t.setPx { t.px with y8 := BitVec.ofNat 8 v }) s)

/-- CHROMA_FETCH (rule R204): U, and then V at the next byte; a fault on either stops it. -/
def execChromaFetch (s : State) : Host.Outcome State Fault Refusal :=
  .next (readThen (uAddr s.run.desc s.run.r.toNat s.run.c.toNat) 1
    (fun u t => readThen (vAddr t.run.desc t.run.r.toNat t.run.c.toNat) 1
      (fun v q => q.setPx { q.px with u := BitVec.ofNat 8 u, v := BitVec.ofNat 8 v }) t) s)

/-- `clip` (rule R16). -/
def clip (v : Int) : Byte :=
  if v < 0 then 0#8 else if 255 < v then 255#8 else BitVec.ofNat 8 v.toNat

/-- A byte less an offset, as an integer (rule R206). -/
def centred (b : Byte) (offset : Int) : Int := (b.toNat : Int) - offset

/-- The red channel before the shift (rule R206). -/
def redSum (y8 v : Byte) : Int := 298 * centred y8 16 + 409 * centred v 128 + 128

/-- The green channel before the shift (rule R206). -/
def greenSum (y8 u v : Byte) : Int := 298 * centred y8 16 - 100 * centred u 128 - 208 * centred v 128 + 128

/-- The blue channel before the shift (rule R206). -/
def blueSum (y8 u : Byte) : Int := 298 * centred y8 16 + 516 * centred u 128 + 128

/-- A channel from its sum: the arithmetic shift by 8, then `clip` (rules R206 and R207). -/
def channel (sum : Int) : Byte := clip (sum >>> 8)

/-- YUV2RGB (rule R206). -/
def execYuv2rgb (s : State) : Host.Outcome State Fault Refusal :=
  .next (s.setPx { s.px with
    r := channel (redSum s.px.y8 s.px.v)
    g := channel (greenSum s.px.y8 s.px.u s.px.v)
    b := channel (blueSum s.px.y8 s.px.u) })

/-- The packed colour `[0xFF, B, G, R]` from the most significant byte down (rules R108 and R208). -/
def packColor (r g b : Byte) : Word := 255#8 ++ b ++ g ++ r

/-- PACK_RGBA (rule R208). -/
def execPackRgba (s : State) : Host.Outcome State Fault Refusal :=
  .next (s.setPx { s.px with w := packColor s.px.r s.px.g s.px.b })

end Sys2Proof.Machine
end

