-- ==== Sys2Proof/Machine/Float.lean ====
section
/-! DEFINITION. The binary32 primitives of 00_scope.md rule R12: `i2f`, `fsub`, `fmul`, `fdiv`, `fneg`, total functions
on 32-bit patterns. Each finite operation computes the exact result as a quotient of natural numbers in units of
2^-149, the smallest subnormal, and rounds it once. -/

namespace Sys2Proof.Machine

/-- Bit 31, the sign. -/
def signBit (x : Word) : Bool := x.getLsbD 31

/-- Bits [30:0]: exponent and fraction, as a number. On finite patterns it grows with the magnitude. -/
def magnitudeBits (x : Word) : Nat := x.toNat % 2 ^ 31

/-- Bits [30:23], the biased exponent. -/
def exponentField (x : Word) : Nat := magnitudeBits x / 2 ^ 23

/-- Bits [22:0], the fraction. -/
def fractionField (x : Word) : Nat := magnitudeBits x % 2 ^ 23

/-- Exponent all ones and a non-zero fraction (rule R12). -/
def isNaN (x : Word) : Bool := decide (exponentField x = 255) && decide (fractionField x ≠ 0)

/-- Exponent all ones and a zero fraction. -/
def isInf (x : Word) : Bool := decide (exponentField x = 255) && decide (fractionField x = 0)

/-- A zero of either sign. -/
def isZero (x : Word) : Bool := decide (magnitudeBits x = 0)

/-- The magnitude that `e` and `f`, exponent and fraction of a finite pattern, stand for, in units of 2^-149: a
subnormal counts its fraction; a normal adds the hidden bit and scales by 2^(e-1). -/
def scaledMagnitude (e f : Nat) : Nat :=
  if e = 0 then f else (2 ^ 23 + f) * 2 ^ (e - 1)

/-- The magnitude of a finite pattern in units of 2^-149. -/
def finiteMagnitude (x : Word) : Nat := scaledMagnitude (exponentField x) (fractionField x)

/-- The value of a finite pattern in units of 2^-149. -/
def finiteValue (x : Word) : Int :=
  if signBit x then -(finiteMagnitude x : Int) else finiteMagnitude x

/-- The pattern with the given sign and exponent-and-fraction bits. -/
def withSign (sign : Bool) (bits : Nat) : Word :=
  BitVec.ofNat 32 (if sign then 2 ^ 31 + bits else bits)

/-- Exponent-and-fraction bits of an infinity. -/
def infinityBits : Nat := 255 * 2 ^ 23

/-- The infinity of a sign. -/
def infinity (sign : Bool) : Word := withSign sign infinityBits

/-- The zero of a sign. -/
def zero (sign : Bool) : Word := withSign sign 0

/-- Whether a quotient with remainder `rem` of the divisor `den`, cut down to `q`, rounds up: to nearest, ties to
even (rule R12). -/
def roundsUp (q rem den : Nat) : Bool :=
  decide (den < 2 * rem) || (decide (2 * rem = den) && decide (q % 2 = 1))

/-- The exponent-and-fraction bits of `num / den` units of 2^-149, rounded to nearest, ties to even, with 24
significant bits or down to the last subnormal place; beyond the largest finite number, infinity (rule R12). A carry
out of the fraction runs into the exponent, which is what rounding up to the next power of two means. -/
def roundBits (num den : Nat) : Nat :=
  let e := Nat.log2 (num / den) - 23
  let q := num / (den * 2 ^ e)
  let up := if roundsUp q (num % (den * 2 ^ e)) (den * 2 ^ e) then 1 else 0
  min (e * 2 ^ 23 + q + up) infinityBits

/-- The rounded pattern of a sign and a magnitude `num / den` in units of 2^-149. -/
def roundQuotient (sign : Bool) (num den : Nat) : Word := withSign sign (roundBits num den)

/-- The NaN an operation answers: any pattern that is a NaN, free (rule R12, U6; log 3). -/
def freeNaN (op : FpOp) (a b : Word) : Word :=
  let (sign, k) := Config.nanChoice op a b
  withSign sign (infinityBits + 1 + k.val)

/-- `a` with bit 31 inverted, for every pattern (rule R12). -/
def fneg (a : Word) : Word := a ^^^ 0x80000000#32

/-- The `u32` `n` converted to `f32` (rule R12): `n` is `n * 2^149` units of 2^-149. -/
def i2f (n : Word) : Word := roundQuotient false (n.toNat * 2 ^ 149) 1

/-- The product of two patterns (rule R12). -/
def fmul (a b : Word) : Word :=
  let sign := signBit a ^^ signBit b
  if isNaN a || isNaN b then freeNaN .mul a b
  else if isInf a then (if isZero b then freeNaN .mul a b else infinity sign)
  else if isInf b then (if isZero a then freeNaN .mul a b else infinity sign)
  else roundQuotient sign (finiteMagnitude a * finiteMagnitude b) (2 ^ 149)

/-- The quotient of two patterns (rule R12): `x / 0` is an infinity, `0 / 0` and `inf / inf` a NaN. -/
def fdiv (a b : Word) : Word :=
  let sign := signBit a ^^ signBit b
  if isNaN a || isNaN b then freeNaN .div a b
  else if isInf a then (if isInf b then freeNaN .div a b else infinity sign)
  else if isInf b then zero sign
  else if isZero b then (if isZero a then freeNaN .div a b else infinity sign)
  else roundQuotient sign (finiteMagnitude a * 2 ^ 149) (finiteMagnitude b)

/-- The difference of two patterns (rule R12): `inf - inf` is a NaN; an exact zero is `+0` but for `-0 - (+0)`, as
rounding to nearest has it. -/
def fsub (a b : Word) : Word :=
  let v := finiteValue a - finiteValue b
  if isNaN a || isNaN b then freeNaN .sub a b
  else if isInf a then
    (if isInf b && (signBit a == signBit b) then freeNaN .sub a b else infinity (signBit a))
  else if isInf b then infinity (!signBit b)
  else if v = 0 then zero (signBit a && !signBit b)
  else roundQuotient (decide (v < 0)) v.natAbs 1

end Sys2Proof.Machine
end

