-- ==== Sys2Proof/Machine/Commands.lean ====
section
/-! DEFINITION. The four commands: NOP, CREATE and DESTROY (40_commands.md rules R130 to R138) and UNPROJECT
(41_unproject_scan.md rule R150). Each is accepted by the checks every host write meets (`whenIdle`, rules R46, R247;
log 15). -/

namespace Sys2Proof.Machine

/-- 65472.0 as `f32`, the largest raw depth (rules R32 and R132). -/
def maxRawDepth : Word := 0x477FC000#32

/-- The context CREATE makes of the staging registers (rule R132): six copies but for `max_depth`, which takes two
rounded operations. -/
def contextOf (g : Staging) : Context where
  ppx := g.ppx
  ppy := g.ppy
  fx := g.fx
  fy := g.fy
  depthUnit := g.depthUnit
  minDepth := g.minMargin
  maxDepth := fsub (fmul maxRawDepth g.depthUnit) g.maxMargin

/-- NOP changes no state (rule R138). -/
def execNop (s : State) : Host.Outcome State Fault Refusal := .next (whenIdle (fun t => t) s)

/-- CREATE on the free slot latches the context (rule R132); on the taken slot it is the allocation failure, which is
no fault (rules R133 and R251). -/
def createEffect (s : State) : State :=
  if s.status.valid then s.setStatus (statusCreateFailed s.status)
  else (s.setCtx (contextOf s.cfg)).setStatus (statusCreated s.status)

/-- CREATE (rules R130 to R133). -/
def execCreate (s : State) : Host.Outcome State Fault Refusal := .next (whenIdle createEffect s)

/-- DESTROY clears `VALID` and nothing else, whether or not a context exists (rules R136 and R137). -/
def execDestroy (s : State) : Host.Outcome State Fault Refusal :=
  .next (whenIdle (fun t => t.setStatus (statusDestroyed t.status)) s)

/-- The snapshot and counters of a launch (rules R50, R52 and R150). -/
def launchedRun (d : Descriptor) : Run where
  desc := d
  r := 0#32
  c := 0#32
  n := 0#32

/-- UNPROJECT launches a run when a context exists, and faults with `NoContext` when none does (rules R150 and R246).
From the launch the run's buffers are the engine's, beside those of
earlier runs the host has not yet seen end (rule R84). -/
def launchEffect (s : State) : State :=
  if s.status.valid then
    ((s.setRun (launchedRun s.desc)).setStatus (statusLaunch s.status)).setExclusive (s.exclusive.insert s.desc)
  else raise .noContext s

/-- UNPROJECT (rule R150): the launch; the engine's steps do the rest. -/
def execUnproject (s : State) : Host.Outcome State Fault Refusal := .next (whenIdle launchEffect s)

end Sys2Proof.Machine
end

