-- ==== Sys2Proof/Machine/Depth.lean ====
section
/-! DEFINITION. The stages DEPTH_FETCH, LINEARISE and BACKPROJECT: 42_depth_backprojection.md rules R170 to R174.
They act on the pixel the scan counters name, whether or not a run is busy: it is the sequencer that selects them
(rule R153; log 16). -/

namespace Sys2Proof.Machine

/-- DEPTH_FETCH (rule R171): the 16-bit little-endian sample, neither shifted nor masked. -/
def execDepthFetch (s : State) : Host.Outcome State Fault Refusal :=
  .next (readThen (depthSampleAddr s.run.desc s.run.r.toNat s.run.c.toNat) 2
    (fun v t => t.setPx { t.px with s := BitVec.ofNat 16 v }) s)

/-- `d = fmul(i2f(s), depth_unit)` (rule R172). -/
def lineariseSample (sample : Half) (depthUnit : Word) : Word := fmul (i2f (sample.setWidth 32)) depthUnit

/-- LINEARISE (rule R172). -/
def execLinearise (s : State) : Host.Outcome State Fault Refusal :=
  .next (s.setPx { s.px with d := lineariseSample s.px.s s.ctx.depthUnit })

/-- `(depth * (pixel - principal)) / focal`, each operation rounded, in the order of rule R174. -/
def backprojectAxis (depth pixel principal focal : Word) : Word :=
  fdiv (fmul depth (fsub (i2f pixel) principal)) focal

/-- BACKPROJECT (rule R173): the column goes with `ppx` and `fx`, the row with `ppy` and `fy`, and the row axis takes
the negated depth. -/
def execBackproject (s : State) : Host.Outcome State Fault Refusal :=
  .next (s.setPx { s.px with
    x := backprojectAxis s.px.d s.run.c s.ctx.ppx s.ctx.fx
    y := backprojectAxis (fneg s.px.d) s.run.r s.ctx.ppy s.ctx.fy
    z := s.px.d })

end Sys2Proof.Machine
end

