-- ==== Sys2Proof/Machine/Emit.lean ====
section
/-! DEFINITION. The stage EMIT: 44_emit.md rules R230 to R234. -/

namespace Sys2Proof.Machine

/-- The four writes of the entry at index `run.n`, in their order (rules R79 and R230): X, Y, Z, the colour. The index
is the count before the increment (90_conflicts.md C1). -/
def entryWrites (s : State) : List (Nat × Word) :=
  let p := pointAddr s.run.desc s.run.n.toNat
  let q := colorEntryAddr s.run.desc s.run.n.toNat
  [(p, s.px.x), (p + 4, s.px.y), (p + 8, s.px.z), (q, s.px.w)]

/-- EMIT (rule R230): a fault on one write leaves the earlier ones done and the later ones not done. The count goes up
in the pixel step, not here (rule R153). -/
def execEmit (s : State) : Host.Outcome State Fault Refusal := .next (storeWords (entryWrites s) s)

end Sys2Proof.Machine
end

