-- ==== Sys2Proof/Machine/Dispatch.lean ====
section
/-! DEFINITION. One arm per constructor of `Instr`. -/

namespace Sys2Proof.Machine

def exec (i : Instr) (s : State) : Host.Outcome State Fault Refusal :=
  match i with
  | .nop => Sys2Proof.Machine.execNop s
  | .create => Sys2Proof.Machine.execCreate s
  | .unproject => Sys2Proof.Machine.execUnproject s
  | .destroy => Sys2Proof.Machine.execDestroy s
  | .depthFetch => Sys2Proof.Machine.execDepthFetch s
  | .linearise => Sys2Proof.Machine.execLinearise s
  | .backproject => Sys2Proof.Machine.execBackproject s
  | .colorDefault => Sys2Proof.Machine.execColorDefault s
  | .lumaFetch => Sys2Proof.Machine.execLumaFetch s
  | .chromaFetch => Sys2Proof.Machine.execChromaFetch s
  | .yuv2rgb => Sys2Proof.Machine.execYuv2rgb s
  | .packRgba => Sys2Proof.Machine.execPackRgba s
  | .emit => Sys2Proof.Machine.execEmit s

end Sys2Proof.Machine
end

