-- ==== Sys2Proof/Machine/Engine.lean ====
section
/-! DEFINITION. The engine's turn: the pixel step and the completion, 41_unproject_scan.md rules R152 to R157, over the
stage operations of 30_encoding.md rule R112. -/

namespace Sys2Proof.Machine

/-- The stage operations of one pixel in the order of rule R153, which is the access order of rules R79 and R87. -/
def pixelStages (hasColor : Bool) : List Instr :=
  if hasColor then [.depthFetch, .lumaFetch, .chromaFetch, .linearise, .backproject, .yuv2rgb, .packRgba, .emit]
  else [.depthFetch, .linearise, .backproject, .colorDefault, .packRgba, .emit]

/-- The same stage operations in the order of the table of rule R112. No step uses it; the two orders agree. -/
def tableStages (hasColor : Bool) : List Instr :=
  if hasColor then [.depthFetch, .linearise, .backproject, .lumaFetch, .chromaFetch, .yuv2rgb, .packRgba, .emit]
  else [.depthFetch, .linearise, .backproject, .colorDefault, .packRgba, .emit]

/-- Stage operations one after another; a fault (which clears `BUSY`, rule R240) stops the rest (rules R153, R249). -/
def runStages : List Instr → State → Host.Outcome State Fault Refusal
  | [], s => .next s
  | i :: rest, s =>
    match exec i s with
    | .next t => if t.status.busy then runStages rest t else .next t
    | .fault r => .fault r
    | .refused r => .refused r

/-- `scan_over` (rule R153): the capacity is reached, or the frame is at its end, or it is empty. -/
def scanOver (u : Run) : Bool :=
  decide (u.n = u.desc.capacity) || decide (u.desc.width = 0#32) || decide (u.r = u.desc.height)

/-- The counters moved to the next pixel in row-major order (rules R52 and R153). -/
def advanceRun (u : Run) : Run :=
  if u.c + 1#32 = u.desc.width then { u with n := u.n + 1#32, c := 0#32, r := u.r + 1#32 }
  else { u with n := u.n + 1#32, c := u.c + 1#32 }

/-- The end of a pixel step: the counters advance unless an access faulted (rule R249), and the working values are
gone (rule R53). -/
def finishPixel (s : State) : State :=
  (if s.status.busy then s.setRun (advanceRun s.run) else s).setPx Pixel.clear

/-- One pixel over a given order of its stage operations. -/
def pixelStepOver (stages : List Instr) (s : State) : Host.Outcome State Fault Refusal :=
  match runStages stages s with
  | .next t => .next (finishPixel t)
  | .fault r => .fault r
  | .refused r => .refused r

/-- The pixel step (rule R153), one transition. Log 8. -/
def pixelStep (s : State) : Host.Outcome State Fault Refusal := pixelStepOver (pixelStages s.run.desc.hasColor) s

/-- The completion (rule R157). -/
def completeRun (s : State) : State := (s.setUsed s.run.n).setStatus (statusComplete s.status)

/-- The engine's turn (rules R9, R153 and R272): a pixel or the completion while a run is busy, nothing otherwise. -/
def engineTurn (s : State) : Host.Outcome State Fault Refusal :=
  if s.status.busy then (if scanOver s.run then .next (completeRun s) else pixelStep s) else .next s

/-- What a pixel in progress has done when reset cuts it off after `written` writes of its entry (rule R271): a busy
run's pixel is carried up to those writes. Log 9. -/
def partialPixel (written : Nat) (s : State) : State :=
  if s.status.busy && !scanOver s.run then
    match runStages (pixelStages s.run.desc.hasColor).dropLast s with
    | .next t => if t.status.busy then storeWords ((entryWrites t).take written) t else t
    | .fault _ => s
    | .refused _ => s
  else s

/-- The platform's reset input (rules R270 and R271). -/
def resetTurn (written : Nat) (s : State) : State := resetBlock (partialPixel written s)

end Sys2Proof.Machine
end

