-- ==== Sys2Proof/WellFormed.lean ====
section
/-! DEFINITION. Which instructions a host may give as a word: the four commands of rule R101. The stage operations are
"not encoded anywhere: the sequencer is hard-wired" (rule R100). -/

namespace Sys2Proof

/-- The instruction is a command, so it has a word of format `CMDW` (rules R100 to R102). -/
def Instr.isCommand : Instr → Bool
  | .nop => true
  | .create => true
  | .unproject => true
  | .destroy => true
  | .depthFetch => false
  | .linearise => false
  | .backproject => false
  | .colorDefault => false
  | .lumaFetch => false
  | .chromaFetch => false
  | .yuv2rgb => false
  | .packRgba => false
  | .emit => false

/-- An instruction is well-formed, as something a host writes to `CTRL`, when it is a command; there is no other
check, since no command has an operand (rule R104). -/
abbrev Instr.wellFormed (i : Instr) : Bool := i.isCommand

end Sys2Proof
end

