-- ==== Sys2Proof/Decode.lean ====
section
/-! DEFINITION. The command word of `CTRL`, format `CMDW`: 30_encoding.md rules R100 to R103 and R117. -/

namespace Sys2Proof

/-- Why a word written to `CTRL` is no command. -/
inductive Reject where
  /-- Bits [31:2] are not all zero: an illegal command, `BadCmd` (rule R103). Raised by `decode`; safe, the spec's. -/
  | reservedBitsSet
  deriving DecidableEq, Repr

/-- The field `CMD`, bits [1:0] (rule R101). -/
def cmdField (w : Word) : BitVec 2 := w.extractLsb' 0 2

/-- The field `RSV`, bits [31:2] (rule R101). -/
def rsvField (w : Word) : BitVec 30 := w.extractLsb' 2 30

/-- The command a value of `CMD` names (rule R101): every value names one. -/
def commandOf (cmd : BitVec 2) : Instr :=
  if cmd = 0#2 then .nop
  else if cmd = 1#2 then .create
  else if cmd = 2#2 then .unproject
  else .destroy

/-- The decoder of `CTRL` words, total on the 32-bit space: a word with a reserved bit set is never read as the
command its low two bits spell (rules R102 and R103). -/
def decode (w : Word) : Except Reject Instr :=
  if rsvField w = 0#30 then .ok (commandOf (cmdField w)) else .error .reservedBitsSet

/-- The command number of rule R101, for the instructions that have one. -/
def cmdNumber : Instr → Option (BitVec 2)
  | .nop => some 0#2
  | .create => some 1#2
  | .unproject => some 2#2
  | .destroy => some 3#2
  | .depthFetch => none
  | .linearise => none
  | .backproject => none
  | .colorDefault => none
  | .lumaFetch => none
  | .chromaFetch => none
  | .yuv2rgb => none
  | .packRgba => none
  | .emit => none

/-- The word of an instruction: `RSV` zero above the command number; none for a stage operation (rules R100, R101). -/
def encode (i : Instr) : Option Word :=
  (cmdNumber i).map fun cmd => 0#30 ++ cmd

/-- The instruction the decoder reads from the bits `w` as spec/opcode_table.json numbers them: a command is one
32-bit word (rule R100), so its bits are the word's. Log 17. -/
def decodeTableWord (nbits w : Nat) : Option Instr :=
  if nbits = 0 ∨ 32 < nbits ∨ 2 ^ 32 ≤ w then none
  else (decode (BitVec.ofNat 32 w)).toOption

end Sys2Proof
end

