-- ==== Sys2Proof/Machine/HostPort.lean ====
section
/-! DEFINITION. The host's accesses: one register access or one memory access a turn (00_scope.md rule R9, 10_state.md
rules R21 and R46, 60_exceptions.md rule R247, 20_memory.md rule R84). -/

namespace Sys2Proof.Machine

/-- A host write to a register of the block (rule R247). A legal command word is the command; an illegal one is
`BadCmd` (rule R242), after the checks that come first. -/
def writeReg (r : Reg) (w : Word) (s : State) : Host.Outcome State Fault Refusal :=
  match r with
  | .ctrl =>
    match decode w with
    | .ok i => exec i s
    | .error _ => .next (whenIdle (raise .badCmd) s)
  | _ => .next (whenIdle (storeReg r w) s)

/-- A host read of a register (rules R46 and R140). A read of `STATUS` that shows `BUSY = 0` gives the buffers of
all launched runs back to the host (rule R84; log 11). -/
def hostReadReg (r : Reg) (s : State) : State :=
  let (v, t) := readReg r s
  (if r = .status && !s.status.busy then t.setExclusive [] else t).setHostData v

/-- Where a host access of `n` bytes at `a` goes. -/
inductive HostTarget where
  | register (r : Reg)
  | memory
  | badRegisterAccess
  | absent
  deriving DecidableEq, Repr

/-- The platform has memory at the byte: some stretch of it, whatever the engine may do there. -/
def memoryExists (p : Platform) (a : Nat) : Bool :=
  p.regions.any fun g => decide (g.base ≤ a) && decide (a < g.base + g.size)

/-- Where a host access goes (rules R21 and R56): an aligned 32-bit access in the block is its register; any other
access that touches the block is not a move the host has (U12; log 12); the rest is memory where the platform has it
(log 13). -/
def hostTarget (p : Platform) (a n : Nat) : HostTarget :=
  let bytes := (List.range n).map (a + ·)
  if bytes.any (inBlock p) then
    (if n = 4 && a % 4 = 0 then .register (regAt (a - unprojBase p)) else .badRegisterAccess)
  else if bytes.all fun b => decide (b < 2 ^ 32) && memoryExists p b then .memory
  else .absent

/-- Some byte of a host access of `n` bytes at `a` is one that a run in its span of rule R84 touches as `touches`
says. -/
def racesWith (touches : Descriptor → Nat → Bool) (s : State) (a n : Nat) : Bool :=
  s.exclusive.any fun d => ((List.range n).map (a + ·)).any (touches d)

/-- A host write to memory would race with a launched run: it writes a byte the run reads or writes (rule R84). -/
def hostWriteRaces : State → Nat → Nat → Bool := racesWith fun d b => runReadsByte d b || runWritesByte d b

/-- A host read of memory would race with a launched run: it reads a byte the run writes (rule R84). -/
def hostReadRaces : State → Nat → Nat → Bool := racesWith runWritesByte

/-- The host's write of a turn. -/
def hostWrite (a : Word) (width : Width) (v : Word) (s : State) : Host.Outcome State Fault Refusal :=
  match hostTarget s.platform a.toNat (widthBytes width) with
  | .register r => writeReg r v s
  | .memory =>
    if hostWriteRaces s a.toNat (widthBytes width) then .fault .hostRace
    else .next (s.setMem (Memory.writeBytes s.mem a.toNat v (widthBytes width)))
  | .badRegisterAccess => .refused .hostRegisterAccess
  | .absent => .refused .hostMemoryAbsent

/-- The host's read of a turn; a memory value is zero-extended. -/
def hostRead (a : Word) (width : Width) (s : State) : Host.Outcome State Fault Refusal :=
  match hostTarget s.platform a.toNat (widthBytes width) with
  | .register r => .next (hostReadReg r s)
  | .memory =>
    if hostReadRaces s a.toNat (widthBytes width) then .fault .hostRace
    else .next (s.setHostData (BitVec.ofNat 32 (Memory.readBytes s.mem a.toNat (widthBytes width))))
  | .badRegisterAccess => .refused .hostRegisterAccess
  | .absent => .refused .hostMemoryAbsent

/-- The host's write of a word to `CTRL`, offset 0 of the block (rules R22 and R23): how a command reaches the block. -/
def commandWrite (p : Platform) (w : Word) : Turn := .hostWrite (BitVec.ofNat 32 (unprojBase p)) .word w

end Sys2Proof.Machine
end

