-- ==== Sys2Proof/Machine/Step.lean ====
section
/-! DEFINITION. One step of the system: the next turn of its schedule (00_scope.md rule R9, 10_state.md rule R20). -/

namespace Sys2Proof.Machine

/-- What one turn does. -/
def takeTurn (t : Turn) (s : State) : Host.Outcome State Fault Refusal :=
  match t with
  | .engine => engineTurn s
  | .hostWrite a width v => hostWrite a width v s
  | .hostRead a width => hostRead a width s
  | .reset written => .next (resetTurn written s)

/-- The first turn waiting, or the engine's when none is. Log 6. -/
def step (s : State) : Host.Outcome State Fault Refusal :=
  match s.turns with
  | [] => engineTurn s
  | t :: rest => takeTurn t (s.setTurns rest)

/-- `s` with a host write of the command word `w` to `CTRL` as its next turn. The block fetches no instructions (rule
R2): a program reaches it as the host's writes, so this write stands for the fetch. Log 7. -/
def State.withFetchWord (s : State) (_nbits w : Nat) : State :=
  s.setTurns (commandWrite s.platform (BitVec.ofNat 32 w) :: s.turns)

end Sys2Proof.Machine
end

