-- ==== Sys2Proof/Safety.lean ====
section
/-! DEFINITION. The terms claims are made in: the premises of a run (70_reset_and_hazards.md rules R279 to R285), what
a run computes as one function (41_unproject_scan.md rule R151), and the invariant of the system. -/

namespace Sys2Proof.Safety

open Sys2Proof.Machine

/-- The block accepts a host write: no fault is recorded and no run is busy (rules R46 and R247). -/
abbrev Idle (s : State) : Prop := s.status.err = false ∧ s.status.busy = false

/-- The next turn is the engine's: no turn is waiting, or the first one waiting is the engine's (rule R9). What remains
after it is `s.turns.tail`. -/
abbrev EngineMoves (s : State) : Prop := s.turns = [] ∨ s.turns.head? = some .engine

/-- The register map of rule R22, word for word: each offset of the block and its register. -/
def registerMap : List (Nat × Reg) :=
  [(0x00, .ctrl), (0x04, .status), (0x08, .cfgPpx), (0x0C, .cfgPpy), (0x10, .cfgFx), (0x14, .cfgFy),
   (0x18, .cfgDepthUnit), (0x1C, .cfgMinMargin), (0x20, .cfgMaxMargin), (0x24, .reserved)] ++
  [(0x28, .ctxPpx), (0x2C, .ctxPpy), (0x30, .ctxFx), (0x34, .ctxFy), (0x38, .ctxDepthUnit), (0x3C, .ctxMinDepth),
   (0x40, .ctxMaxDepth), (0x44, .reserved)] ++
  [(0x48, .frmWidth), (0x4C, .frmHeight), (0x50, .frmDepthStride), (0x54, .frmDepthAddr), (0x58, .frmFlags),
   (0x5C, .frmColorAddr), (0x60, .frmColorStride), (0x64, .reserved)] ++
  [(0x68, .outPointsAddr), (0x6C, .outColorsAddr), (0x70, .outCapacity), (0x74, .outUsed), (0x78, .reserved),
   (0x7C, .reserved)]

/-- A read-write register (rule R22). -/
def isReadWrite : Reg → Bool
  | .cfgPpx | .cfgPpy | .cfgFx | .cfgFy | .cfgDepthUnit | .cfgMinMargin | .cfgMaxMargin => true
  | .frmWidth | .frmHeight | .frmDepthStride | .frmDepthAddr | .frmFlags | .frmColorAddr | .frmColorStride => true
  | .outPointsAddr | .outColorsAddr | .outCapacity => true
  | .ctrl | .status | .outUsed | .reserved => false
  | .ctxPpx | .ctxPpy | .ctxFx | .ctxFy | .ctxDepthUnit | .ctxMinDepth | .ctxMaxDepth => false

/-- A register of the context, `CTX_*` (rule R27). -/
def isContextReg : Reg → Bool
  | .ctxPpx | .ctxPpy | .ctxFx | .ctxFy | .ctxDepthUnit | .ctxMinDepth | .ctxMaxDepth => true
  | .cfgPpx | .cfgPpy | .cfgFx | .cfgFy | .cfgDepthUnit | .cfgMinMargin | .cfgMaxMargin => false
  | .frmWidth | .frmHeight | .frmDepthStride | .frmDepthAddr | .frmFlags | .frmColorAddr | .frmColorStride => false
  | .outPointsAddr | .outColorsAddr | .outCapacity | .ctrl | .status | .outUsed | .reserved => false

/-! ## The accesses of a pixel step (rules R79 and R248) -/

/-- One access of the engine: its kind, its address and its bytes. -/
structure Access where
  kind : AccessKind
  address : Nat
  bytes : Nat
  deriving DecidableEq, Repr

/-- The reads of pixel `(r, c)` in their order (rule R79). -/
def pixelReads (d : Descriptor) (r c : Nat) : List Access :=
  ⟨.read, depthSampleAddr d r c, 2⟩ ::
    (if d.hasColor then [⟨.read, lumaAddr d r c, 1⟩, ⟨.read, uAddr d r c, 1⟩, ⟨.read, vAddr d r c, 1⟩] else [])

/-- The writes of output entry `n` in their order (rule R79). -/
def pixelWrites (d : Descriptor) (n : Nat) : List Access :=
  [⟨.write, pointAddr d n, 4⟩, ⟨.write, pointAddr d n + 4, 4⟩, ⟨.write, pointAddr d n + 8, 4⟩,
   ⟨.write, colorEntryAddr d n, 4⟩]

/-- The fault of one access, `Misaligned` before `AccessFault` (rules R77, R78 and R248). -/
def accessFaultOf (p : Platform) (x : Access) : Option FaultCause :=
  if x.address % x.bytes ≠ 0 then some .misaligned
  else if admitted p x.kind x.address x.bytes then none
  else some .accessFault

/-- The fault of the first access that faults (rule R248). -/
def firstFault (p : Platform) (xs : List Access) : Option FaultCause := xs.findSome? (accessFaultOf p)

/-! ## The premises of a run -/

/-- The row of the `k`-th pixel visited (rule R152). -/
def rowOf (d : Descriptor) (k : Nat) : Nat := k / d.width.toNat

/-- The column of the `k`-th pixel visited (rule R152). -/
def colOf (d : Descriptor) (k : Nat) : Nat := k % d.width.toNat

/-- Every access of pixel `(r, c)` at output index `n` is admitted (rules R79 and R279). -/
abbrev PixelAdmitted (p : Platform) (d : Descriptor) (r c n : Nat) : Prop :=
  admitted p .read (depthSampleAddr d r c) 2 = true ∧
  (d.hasColor = true → admitted p .read (lumaAddr d r c) 1 = true ∧ admitted p .read (uAddr d r c) 1 = true ∧
    admitted p .read (vAddr d r c) 1 = true) ∧
  admitted p .write (pointAddr d n) 4 = true ∧ admitted p .write (pointAddr d n + 4) 4 = true ∧
  admitted p .write (pointAddr d n + 8) 4 = true ∧ admitted p .write (colorEntryAddr d n) 4 = true

/-- Every buffer byte a run touches exists (rule R279). -/
abbrev BuffersExist (p : Platform) (d : Descriptor) : Prop :=
  ∀ k, k < pixelCount d → PixelAdmitted p d (rowOf d k) (colOf d k) k

/-- The alignment that keeps a run free of `Misaligned` (rule R78). -/
abbrev Aligned (d : Descriptor) : Prop :=
  d.depthAddr.toNat % 2 = 0 ∧ d.depthStride.toNat % 2 = 0 ∧ d.pointsAddr.toNat % 4 = 0 ∧ d.colorsAddr.toNat % 4 = 0

/-- The output arrays overlap neither each other nor a byte the run reads (rule R283). -/
abbrev OutputsDisjoint (d : Descriptor) : Prop :=
  (d.pointsAddr.toNat + 12 * pixelCount d ≤ d.colorsAddr.toNat ∨
    d.colorsAddr.toNat + 4 * pixelCount d ≤ d.pointsAddr.toNat) ∧
  ∀ k, k < pixelCount d → ∀ a ∈ pixelBytes d (rowOf d k) (colOf d k), runWritesByte d a = false

/-- What a run needs to raise no fault and to have every value given: the premises of rules R279, R78 and R283.
The further premises of rule R285 (rules R280, R281, R282) say that the bytes are the frame the host meant; no value
of the block depends on them. -/
abbrev RunPremises (p : Platform) (d : Descriptor) : Prop := BuffersExist p d ∧ Aligned d ∧ OutputsDisjoint d

/-! ## A whole run as one function (rule R151) -/

/-- The depth sample of pixel `(r, c)` in memory (rules R71 and R106). -/
def sampleAt (m : List Host.Cell) (d : Descriptor) (r c : Nat) : Half :=
  Memory.read m (depthSampleAddr d r c + 1) ++ Memory.read m (depthSampleAddr d r c)

/-- The linear depth of pixel `(r, c)` (rule R172). -/
def depthAt (x : Context) (m : List Host.Cell) (d : Descriptor) (r c : Nat) : Word :=
  fmul (i2f ((sampleAt m d r c).setWidth 32)) x.depthUnit

/-- `X` of pixel `(r, c)` (rule R173). -/
def pointX (x : Context) (m : List Host.Cell) (d : Descriptor) (r c : Nat) : Word :=
  fdiv (fmul (depthAt x m d r c) (fsub (i2f (BitVec.ofNat 32 c)) x.ppx)) x.fx

/-- `Y` of pixel `(r, c)` (rule R173). -/
def pointY (x : Context) (m : List Host.Cell) (d : Descriptor) (r c : Nat) : Word :=
  fdiv (fmul (fneg (depthAt x m d r c)) (fsub (i2f (BitVec.ofNat 32 r)) x.ppy)) x.fy

/-- The packed colour of three luma and chroma bytes (rules R206 and R208). -/
def fusedColor (y8 u v : Byte) : Word :=
  packColor (channel (redSum y8 v)) (channel (greenSum y8 u v)) (channel (blueSum y8 u))

/-- The packed colour of pixel `(r, c)`: white without a colour plane (rule R201), else fused (rules R203 to R208). -/
def colorAt (m : List Host.Cell) (d : Descriptor) (r c : Nat) : Word :=
  if d.hasColor then
    fusedColor (Memory.read m (lumaAddr d r c)) (Memory.read m (uAddr d r c)) (Memory.read m (vAddr d r c))
  else 0xFFFFFFFF#32

/-- The four words of output entry `k` and their addresses (rules R74, R75 and R151). -/
def entryOf (x : Context) (m : List Host.Cell) (d : Descriptor) (k : Nat) : List (Nat × Word) :=
  [(pointAddr d k, pointX x m d (rowOf d k) (colOf d k)),
   (pointAddr d k + 4, pointY x m d (rowOf d k) (colOf d k)),
   (pointAddr d k + 8, depthAt x m d (rowOf d k) (colOf d k)),
   (colorEntryAddr d k, colorAt m d (rowOf d k) (colOf d k))]

/-- Memory holds a word at an address, little-endian (rule R76). -/
abbrev HoldsWord (m : List Host.Cell) (a : Nat) (v : Word) : Prop :=
  ∀ i, i < 4 → Memory.read m (a + i) = wordByte v i

/-! ## The invariant -/

/-- The scan counters name the next pixel of the frame, or its end (rule R52). -/
structure CountersInRange (u : Run) : Prop where
  index : u.n.toNat = u.r.toNat * u.desc.width.toNat + u.c.toNat
  withinCapacity : u.n.toNat ≤ u.desc.capacity.toNat
  rowInFrame : u.r.toNat ≤ u.desc.height.toNat
  columnInRow : u.desc.width ≠ 0#32 → u.c.toNat < u.desc.width.toNat
  atEnd : u.r = u.desc.height → u.c = 0#32
  emptyRow : u.desc.width = 0#32 → u.r = 0#32 ∧ u.c = 0#32

/-- What holds at reset and after every step: memory is canonical, the flags are a legal state of rules R24 and R139,
a busy run's snapshot agrees with the registers (rule R50) and its counters are in range (rule R52), a completed run's
count is what rule R151 says, a busy run is in its span of rule R84 (log 11), and no working value survives a step (rule R53). -/
structure Inv (s : State) : Prop where
  memory : Memory.wf s.mem = true
  causeZero : s.status.err = false → s.status.cause = 0#4
  causeKnown : s.status.err = true → ∃ k, s.status.cause = causeCode k
  busyNotDone : s.status.busy = true → s.status.done = false
  busyNotErr : s.status.busy = true → s.status.err = false
  busyValid : s.status.busy = true → s.status.valid = true
  busyExclusive : s.status.busy = true → s.run.desc ∈ s.exclusive
  spansDistinct : s.exclusive.Nodup
  snapshot : s.status.busy = true → s.run.desc = s.desc
  counters : s.status.busy = true → CountersInRange s.run
  doneCount : s.status.done = true → s.used.toNat = pixelCount s.run.desc
  noWorkingValue : s.px = Pixel.clear

end Sys2Proof.Safety
end

