-- ==== Sys2Proof/Certificates/Slice0/Obligations.lean ====
section
/-! DEFINITION. The statements for the provers, each a `Prop`, from the numbered rules of spec/. -/

open Sys2Proof Sys2Proof.Machine Sys2Proof.Safety

/-! ## The command word -/

/-- Rule R102: the four words with `RSV = 0` are the four commands of rule R101, and every other word is reserved. -/
def Obligations.CommandWordsAreFour : Prop :=
  decode 0x00000000#32 = .ok .nop ∧ decode 0x00000001#32 = .ok .create ∧
  decode 0x00000002#32 = .ok .unproject ∧ decode 0x00000003#32 = .ok .destroy ∧
  ∀ w : Word, 4 ≤ w.toNat → decode w = .error .reservedBitsSet

/-- Every command has a word that decodes to it, and a word that decodes is the word of what it decodes to, which is a
command (rules R101 and R117). -/
def Obligations.DecodeAndEncodeAgree : Prop :=
  (∀ i : Instr, i.wellFormed = true → ∃ w, encode i = some w ∧ decode w = .ok i) ∧
  (∀ (w : Word) (i : Instr), decode w = .ok i → i.wellFormed = true ∧ encode i = some w)

/-- A step takes the first turn that waits, or the engine's where none does (logs 6 and 7); each kind of turn is what
its agent does. When that turn is the host's write of a command's word to `CTRL`, the step is that command; so is the
step of `withFetchWord`, which puts that write first. -/
def Obligations.StepRunsTheCommandWritten : Prop :=
  (∀ (s : State) (w : Word) (i : Instr), decode w = .ok i →
    (∀ rest, s.turns = commandWrite s.platform w :: rest → step s = exec i (s.setTurns rest)) ∧
    step (s.withFetchWord 32 w.toNat) = exec i s) ∧
  ∀ s : State,
    (EngineMoves s → step s = engineTurn (s.setTurns s.turns.tail)) ∧
    ∀ rest,
      (∀ a width v, s.turns = .hostWrite a width v :: rest → step s = hostWrite a width v (s.setTurns rest)) ∧
      (∀ a width, s.turns = .hostRead a width :: rest → step s = hostRead a width (s.setTurns rest)) ∧
      ∀ written, s.turns = .reset written :: rest → step s = takeTurn (.reset written) (s.setTurns rest)

/-! ## The commands -/

/-- Rule R138: the all-zero word is NOP; it changes no state, in the idle state and in the error state; written while a
run is busy it raises `BusyWrite` like any other write. -/
def Obligations.NopChangesNothing : Prop :=
  decode 0x00000000#32 = .ok .nop ∧
  ∀ s : State,
    (Idle s ∨ s.status.err = true → exec .nop s = .next s) ∧
    (s.status.err = false → s.status.busy = true →
      exec .nop s = .next { s with status := { s.status with err := true, cause := 2#4, busy := false } })

/-- Rule R132: CREATE on the free slot makes the nine writes and no other; the rule's example gives `CTX_MAX_DEPTH`. -/
def Obligations.CreateLatchesTheContext : Prop :=
  (∀ s : State, Idle s → s.status.valid = false →
    exec .create s = .next { s with
      ctx := {
        ppx := s.cfg.ppx
        ppy := s.cfg.ppy
        fx := s.cfg.fx
        fy := s.cfg.fy
        depthUnit := s.cfg.depthUnit
        minDepth := s.cfg.minMargin
        maxDepth := fsub (fmul 0x477FC000#32 s.cfg.depthUnit) s.cfg.maxMargin }
      status := { s.status with valid := true, createFail := false } }) ∧
  fmul 0x477FC000#32 0x3A83126F#32 = 0x4282F1AA#32 ∧ fsub 0x4282F1AA#32 0x3DCCCCCD#32 = 0x4282BE77#32

/-- Rule R133: CREATE on the taken slot sets `CREATE_FAIL` and changes nothing else; it is no fault. -/
def Obligations.CreateOnTheTakenSlotFails : Prop :=
  ∀ s : State, Idle s → s.status.valid = true →
    exec .create s = .next { s with status := { s.status with createFail := true } }

/-- Rules R136 and R137: DESTROY, the word 3, clears `VALID` and nothing else, and with no context changes nothing; it is
accepted only on an idle block. -/
def Obligations.DestroyClearsValidOnly : Prop :=
  decode 0x00000003#32 = .ok .destroy ∧
  ∀ s : State,
    (Idle s → exec .destroy s = .next { s with status := { s.status with valid := false } }) ∧
    (Idle s → s.status.valid = false → exec .destroy s = .next s) ∧
    (s.status.err = true → exec .destroy s = .next s) ∧
    (s.status.err = false → s.status.busy = true →
      exec .destroy s = .next { s with status := { s.status with err := true, cause := 2#4, busy := false } })

/-- Rules R150 and R246: UNPROJECT, the word 2, on an idle block with a context takes the snapshot of the ten descriptor values,
zeroes the counters, sets `BUSY` and clears `DONE`, whatever the descriptors hold; without a context it raises
`NoContext` and takes no snapshot. Nothing is said of `exclusive`, the model's own field (log 11). -/
def Obligations.UnprojectLaunches : Prop :=
  decode 0x00000002#32 = .ok .unproject ∧
  ∀ s : State, Idle s →
    (s.status.valid = true →
      ∃ e, exec .unproject s = .next { s with
        run := { desc := s.desc, r := 0#32, c := 0#32, n := 0#32 }
        status := { s.status with done := false, busy := true }
        exclusive := e }) ∧
    (s.status.valid = false →
      exec .unproject s = .next { s with status := { s.status with err := true, cause := 3#4 } })

/-- Rules R46 and R139: in the error state a command changes nothing; while a run is busy every command raises
`BusyWrite` and stops the run. -/
def Obligations.CommandsAreAcceptedOnlyWhenIdle : Prop :=
  ∀ (i : Instr) (s : State), i.isCommand = true →
    (s.status.err = true → exec i s = .next s) ∧
    (s.status.err = false → s.status.busy = true →
      exec i s = .next { s with status := { s.status with err := true, cause := 2#4, busy := false } })

/-- No instruction ever stops the machine: every one answers a next state from every state. Rules R240 and R241 make
the block's faults exceptions it takes. That nothing is refused beside them is the model's choice: registers nobody
has written hold values (log 1), launches with overlapping buffers run (log 10), and stages act outside a run too
(log 16), where rules R60, R283 and R284 with U5 and U10 would have a model refuse the first two. -/
def Obligations.EveryInstructionAnswersANextState : Prop :=
  ∀ (i : Instr) (s : State), ∃ t, exec i s = .next t

/-! ## Registers -/

/-- Rules R103 and R242: a write to `CTRL` with a reserved bit set, on an idle block, performs no command and raises
`BadCmd`, whatever its low two bits are. -/
def Obligations.IllegalCommandWordFaults : Prop :=
  ∀ (s : State) (w : Word), Idle s → w >>> 2 ≠ 0#32 →
    writeReg .ctrl w s = .next { s with status := { s.status with err := true, cause := 1#4 } }

/-- Rule R243: a host write to any register while a run is busy is dropped and raises `BusyWrite`; the run stops,
`OUT_USED` is not written and `DONE` stays. -/
def Obligations.WriteWhileBusyStopsTheRun : Prop :=
  ∀ (s : State) (r : Reg) (w : Word), s.status.err = false → s.status.busy = true →
    writeReg r w s = .next { s with status := { s.status with err := true, cause := 2#4, busy := false } }

/-- Rules R46 and R250: in the error state a host write to any register, with any word, changes nothing. -/
def Obligations.ErrorStateIgnoresWrites : Prop :=
  ∀ (s : State) (r : Reg) (w : Word), s.status.err = true → writeReg r w s = .next s

/-- Rules R22, R25, R26 and R38: a read-write register reads back the word written (of `FRM_FLAGS` bit 0), every other
register reads as before, and the context, the run, the flags, the count and memory are unchanged. -/
def Obligations.RegisterReadsBackWhatWasWritten : Prop :=
  ∀ (s : State) (r : Reg) (w : Word), Idle s → isReadWrite r = true →
    ∃ t, writeReg r w s = .next t ∧
      (readReg r t).1 = (if r = .frmFlags then w &&& 1#32 else w) ∧
      (∀ q, q ≠ r → (readReg q t).1 = (readReg q s).1) ∧
      t = { s with cfg := t.cfg, desc := t.desc }

/-- Rules R45 and R46: on an idle block a write to a read-only register or a reserved offset is ignored. -/
def Obligations.ReadOnlyRegistersIgnoreWrites : Prop :=
  ∀ (s : State) (r : Reg) (w : Word), Idle s → isReadWrite r = false → r ≠ .ctrl → writeReg r w s = .next s

/-- Rules R23, R45, R46 and R140: a host read returns its register's value and changes nothing of the block or of
memory; `CTRL` and reserved offsets read as zero; a staging or descriptor register reads its own field, the one CREATE
latches (rules R25, R132) or the launch snapshots (rules R34 to R43, R50); a context register reads its field while `VALID = 1`. Of the model's
own fields (logs 4, 6 and 11), `exclusive`, the runs in their span of rule R84, empties at a read of `STATUS` that shows `BUSY = 0` and
at no other read. -/
def Obligations.HostReadsHaveNoSideEffect : Prop :=
  (∀ (s : State) (r : Reg), hostReadReg r s =
    { s with
      hostData := (readReg r s).1
      exclusive := if r = .status ∧ s.status.busy = false then [] else s.exclusive
      free := (hostReadReg r s).free }) ∧
  (∀ s : State, (readReg .ctrl s).1 = 0#32 ∧ (readReg .reserved s).1 = 0#32 ∧ (readReg .outUsed s).1 = s.used ∧
    (readReg .cfgPpx s).1 = s.cfg.ppx ∧ (readReg .cfgPpy s).1 = s.cfg.ppy ∧ (readReg .cfgFx s).1 = s.cfg.fx ∧
    (readReg .cfgFy s).1 = s.cfg.fy ∧ (readReg .cfgDepthUnit s).1 = s.cfg.depthUnit ∧
    (readReg .cfgMinMargin s).1 = s.cfg.minMargin ∧ (readReg .cfgMaxMargin s).1 = s.cfg.maxMargin ∧
    (readReg .frmWidth s).1 = s.desc.width ∧ (readReg .frmHeight s).1 = s.desc.height ∧
    (readReg .frmDepthStride s).1 = s.desc.depthStride ∧ (readReg .frmDepthAddr s).1 = s.desc.depthAddr ∧
    (readReg .frmFlags s).1 = (if s.desc.hasColor then 1#32 else 0#32) ∧
    (readReg .frmColorAddr s).1 = s.desc.colorAddr ∧ (readReg .frmColorStride s).1 = s.desc.colorStride ∧
    (readReg .outPointsAddr s).1 = s.desc.pointsAddr ∧ (readReg .outColorsAddr s).1 = s.desc.colorsAddr ∧
    (readReg .outCapacity s).1 = s.desc.capacity ∧
    (s.status.valid = true → (readReg .ctxPpx s).1 = s.ctx.ppx ∧ (readReg .ctxPpy s).1 = s.ctx.ppy ∧
      (readReg .ctxFx s).1 = s.ctx.fx ∧ (readReg .ctxFy s).1 = s.ctx.fy ∧
      (readReg .ctxDepthUnit s).1 = s.ctx.depthUnit ∧ (readReg .ctxMinDepth s).1 = s.ctx.minDepth ∧
      (readReg .ctxMaxDepth s).1 = s.ctx.maxDepth))

/-- Rule R24: the place of every field in the word `STATUS` reads as, reserved bits zero. -/
def Obligations.StatusWordLayout : Prop :=
  ∀ s : State,
    let w := (readReg .status s).1
    w.getLsbD 0 = s.status.valid ∧ w.getLsbD 1 = s.status.busy ∧ w.getLsbD 2 = s.status.done ∧
    w.getLsbD 3 = s.status.createFail ∧ w.getLsbD 4 = s.status.err ∧ w.extractLsb' 5 3 = 0#3 ∧
    w.extractLsb' 8 4 = s.status.cause ∧ w.extractLsb' 12 20 = 0#20

/-- Rules R21 and R22: the host reaches the register at each of the 32 offsets of the block at `UNPROJ_BASE + offset`:
a step that is the host's aligned 32-bit write there is a write of that register, and likewise a read. -/
def Obligations.RegisterMap : Prop :=
  registerMap.map (fun e => e.1) = (List.range 32).map (4 * ·) ∧
  ∀ (s : State) (rest : List Turn), ∀ e ∈ registerMap,
    hostTarget s.platform (unprojBase s.platform + e.1) 4 = .register e.2 ∧
    (∀ v, s.turns = .hostWrite (BitVec.ofNat 32 (unprojBase s.platform + e.1)) .word v :: rest →
      step s = writeReg e.2 v (s.setTurns rest)) ∧
    (s.turns = .hostRead (BitVec.ofNat 32 (unprojBase s.platform + e.1)) .word :: rest →
      step s = .next (hostReadReg e.2 (s.setTurns rest)))

/-- Rule R21, U12: a host access that touches the register block and is not an aligned 32-bit access is refused. -/
def Obligations.HostReachesRegistersByAlignedWordsOnly : Prop :=
  ∀ (s : State) (a : Word) (width : Width) (v : Word),
    (∃ i, i < widthBytes width ∧ inBlock s.platform (a.toNat + i) = true) →
    (width ≠ .word ∨ a.toNat % 4 ≠ 0) →
      hostWrite a width v s = .refused .hostRegisterAccess ∧ hostRead a width s = .refused .hostRegisterAccess

/-! ## Faults -/

/-- Rule R240, with the codes of rule R241: taking a fault records the first cause, makes `ERR` sticky, stops a run, and
changes nothing else. -/
def Obligations.FaultRecordsTheFirstCause : Prop :=
  (causeCode .badCmd = 1#4 ∧ causeCode .busyWrite = 2#4 ∧ causeCode .noContext = 3#4 ∧ causeCode .accessFault = 4#4 ∧
    causeCode .misaligned = 5#4) ∧
  ∀ (k : FaultCause) (s : State),
    (s.status.err = false →
      raise k s = { s with status := { s.status with err := true, cause := causeCode k, busy := false } }) ∧
    (s.status.err = true → raise k s = { s with status := { s.status with busy := false } })

/-- Rule R250: from a state that meets the invariant, a step that is not the reset input leaves `ERR` and `CAUSE` of
the error state as they are, and with them every flag, register, the context and the run. -/
def Obligations.OnlyResetLeavesTheErrorState : Prop :=
  ∀ s t : State, Inv s → s.status.err = true → (∀ k, s.turns.head? ≠ some (.reset k)) → step s = .next t →
    t.status = s.status ∧ t.cfg = s.cfg ∧ t.ctx = s.ctx ∧ t.desc = s.desc ∧ t.used = s.used ∧ t.run = s.run

/-- Rules R270 and R271: the reset input zeroes `STATUS` and `OUT_USED` and leaves memory alone, but for the entry of
a pixel it cut off; of an idle block it leaves all of memory alone. -/
def Obligations.ResetClearsStatusAndKeepsMemory : Prop :=
  ∀ (written : Nat) (s : State), Memory.wf s.mem = true →
    ∃ t, takeTurn (.reset written) s = .next t ∧
      (readReg .status t).1 = 0#32 ∧ t.used = 0#32 ∧ t.platform = s.platform ∧ t.turns = s.turns ∧
      (s.status.busy = false → t.mem = s.mem) ∧
      (∀ a, ¬(pointAddr s.run.desc s.run.n.toNat ≤ a ∧ a < pointAddr s.run.desc s.run.n.toNat + 12) →
        ¬(colorEntryAddr s.run.desc s.run.n.toNat ≤ a ∧ a < colorEntryAddr s.run.desc s.run.n.toNat + 4) →
        Memory.read t.mem a = Memory.read s.mem a)

/-! ## The depth stages -/

/-- Rule R171: DEPTH_FETCH reads the little-endian sample at `depth_addr + r * depth_stride + 2 * c`, neither shifted
nor masked; it faults with `Misaligned` at an odd address and with `AccessFault` where the read is not admitted. A byte
the run itself writes is an unstated value, and the stage goes on (U5; log 10). -/
def Obligations.DepthFetchReadsTheSample : Prop :=
  ∀ s : State,
    let a := s.run.desc.depthAddr.toNat + s.run.r.toNat * s.run.desc.depthStride.toNat + 2 * s.run.c.toNat
    (a % 2 = 1 → exec .depthFetch s = .next (raise .misaligned s)) ∧
    (a % 2 = 0 → admitted s.platform .read a 2 = false → exec .depthFetch s = .next (raise .accessFault s)) ∧
    (a % 2 = 0 → admitted s.platform .read a 2 = true →
      (runWritesByte s.run.desc a = false → runWritesByte s.run.desc (a + 1) = false →
        exec .depthFetch s =
          .next { s with px := { s.px with s := Memory.read s.mem (a + 1) ++ Memory.read s.mem a } }) ∧
      ∃ v f, exec .depthFetch s = .next { s with px := { s.px with s := v }, free := f })

/-- Rule R172: LINEARISE computes `d = fmul(i2f(s), depth_unit)` and changes nothing else. -/
def Obligations.LineariseScalesTheSample : Prop :=
  ∀ s : State,
    exec .linearise s =
      .next { s with px := { s.px with d := fmul (i2f (BitVec.ofNat 32 s.px.s.toNat)) s.ctx.depthUnit } }

/-- Rule R173: BACKPROJECT computes X from the column, Y from the row with the negated depth, and Z, each operation
rounded, in that order; it changes nothing else. -/
def Obligations.BackprojectComputesThePoint : Prop :=
  ∀ s : State,
    exec .backproject s =
      .next { s with px := { s.px with
        x := fdiv (fmul s.px.d (fsub (i2f s.run.c) s.ctx.ppx)) s.ctx.fx
        y := fdiv (fmul (fneg s.px.d) (fsub (i2f s.run.r) s.ctx.ppy)) s.ctx.fy
        z := s.px.d } }

/-! ## The colour stages -/

/-- Rule R201: COLOR_DEFAULT gives white and changes nothing else, and PACK_RGBA makes the word `0xFFFFFFFF` of it. -/
def Obligations.DefaultColourIsOpaqueWhite : Prop :=
  ∀ s : State,
    exec .colorDefault s = .next { s with px := { s.px with r := 255#8, g := 255#8, b := 255#8 } } ∧
    (s.px.r = 255#8 → s.px.g = 255#8 → s.px.b = 255#8 →
      exec .packRgba s = .next { s with px := { s.px with w := 0xFFFFFFFF#32 } })

/-- Rule R203: LUMA_FETCH reads the byte at `color_addr + r * color_stride + c`; it faults with `AccessFault` where the
read is not admitted and never with `Misaligned`. A byte the run itself writes is an unstated value (U5; log 10). -/
def Obligations.LumaFetchReadsTheByte : Prop :=
  ∀ s : State,
    let a := s.run.desc.colorAddr.toNat + s.run.r.toNat * s.run.desc.colorStride.toNat + s.run.c.toNat
    (admitted s.platform .read a 1 = false → exec .lumaFetch s = .next (raise .accessFault s)) ∧
    (admitted s.platform .read a 1 = true →
      (runWritesByte s.run.desc a = false →
        exec .lumaFetch s = .next { s with px := { s.px with y8 := Memory.read s.mem a } }) ∧
      ∃ v f, exec .lumaFetch s = .next { s with px := { s.px with y8 := v }, free := f })

/-- Rule R204: CHROMA_FETCH reads U at `color_addr + color_stride * height + 2 * e`, with
`e = (r / 2) * (color_stride / 2) + c / 2`, and V at the next byte; a read that is not admitted faults with
`AccessFault`. A byte the run itself writes is an unstated value (U5; log 10). -/
def Obligations.ChromaFetchReadsThePair : Prop :=
  ∀ s : State,
    let e := (s.run.r.toNat / 2) * (s.run.desc.colorStride.toNat / 2) + s.run.c.toNat / 2
    let a := s.run.desc.colorAddr.toNat + s.run.desc.colorStride.toNat * s.run.desc.height.toNat + 2 * e
    (admitted s.platform .read a 1 = false → exec .chromaFetch s = .next (raise .accessFault s)) ∧
    (admitted s.platform .read a 1 = true → admitted s.platform .read (a + 1) 1 = false →
      ∃ f, exec .chromaFetch s = .next (raise .accessFault { s with free := f })) ∧
    (admitted s.platform .read a 1 = true → admitted s.platform .read (a + 1) 1 = true →
      (runWritesByte s.run.desc a = false → runWritesByte s.run.desc (a + 1) = false →
        exec .chromaFetch s =
          .next { s with px := { s.px with u := Memory.read s.mem a, v := Memory.read s.mem (a + 1) } }) ∧
      ∃ u v f, exec .chromaFetch s = .next { s with px := { s.px with u := u, v := v }, free := f })

/-- Rule R204, with the resampler of rule R205: the pixels of one 2×2 block read one chroma pair. -/
def Obligations.BlockSharesItsChromaPair : Prop :=
  ∀ (d : Descriptor) (i j r c : Nat), r / 2 = i → c / 2 = j →
    uAddr d r c = uAddr d (2 * i) (2 * j) ∧ vAddr d r c = uAddr d (2 * i) (2 * j) + 1

/-- Rule R206: YUV2RGB's three channels are the integer formulas, shifted right by 8 with floor and clipped to
`[0, 255]`; nothing else changes. -/
def Obligations.YuvConversionFormulas : Prop :=
  ∀ s : State,
    let y : Int := s.px.y8.toNat
    let u : Int := s.px.u.toNat
    let v : Int := s.px.v.toNat
    ∃ r g b : Byte,
      exec .yuv2rgb s = .next { s with px := { s.px with r := r, g := g, b := b } } ∧
      (r.toNat : Int) = max 0 (min 255 ((298 * (y - 16) + 409 * (v - 128) + 128) / 256)) ∧
      (g.toNat : Int) = max 0 (min 255 ((298 * (y - 16) - 100 * (u - 128) - 208 * (v - 128) + 128) / 256)) ∧
      (b.toNat : Int) = max 0 (min 255 ((298 * (y - 16) + 516 * (u - 128) + 128) / 256))

/-- Rule R207: the pre-shift sums stay in the ranges the rule gives, the shift is the floor of the quotient by 256,
and after `clip` the truncated quotient gives the same byte. -/
def Obligations.ColourSumsAndShiftLaws : Prop :=
  (∀ y u v : Byte, -56992 ≤ redSum y v ∧ redSum y v ≤ 123293 ∧ -43756 ≤ greenSum y u v ∧
    greenSum y u v ≤ 110774 ∧ -70688 ≤ blueSum y u ∧ blueSum y u ≤ 136882) ∧
  ∀ n : Int, n >>> 8 = Int.fdiv n 256 ∧ clip (n >>> 8) = clip (Int.tdiv n 256)

/-- Rule R208: PACK_RGBA packs R in [7:0], G in [15:8], B in [23:16] and `0xFF` in [31:24], and changes nothing else. -/
def Obligations.PackPlacesTheChannels : Prop :=
  ∀ s : State, ∃ w : Word,
    exec .packRgba s = .next { s with px := { s.px with w := w } } ∧
    w.extractLsb' 0 8 = s.px.r ∧ w.extractLsb' 8 8 = s.px.g ∧ w.extractLsb' 16 8 = s.px.b ∧
    w.extractLsb' 24 8 = 0xFF#8

/-- Rule R209, the source's grey round trip: luma 235 with neutral chroma is opaque white, luma 16 opaque black. -/
def Obligations.GreyRoundTrip : Prop :=
  fusedColor 235#8 128#8 128#8 = 0xFFFFFFFF#32 ∧ fusedColor 16#8 128#8 128#8 = 0xFF000000#32

/-- The frame of the stages that do not write memory (rules R47, R53 and R55): each writes only its own working values;
the flags change only by a fault, and the free values drawn are the model's (log 10). -/
def Obligations.FetchAndComputeStagesFrame : Prop :=
  ∀ (i : Instr) (s t : State), i.isCommand = false → i ≠ .emit → exec i s = .next t →
    t = { s with px := t.px, status := t.status, free := t.free } ∧
    (t.status = s.status ∨ ∃ k, t = raise k { s with free := t.free }) ∧
    (i = .depthFetch → t.px = { s.px with s := t.px.s }) ∧
    (i = .linearise → t.px = { s.px with d := t.px.d }) ∧
    (i = .backproject → t.px = { s.px with x := t.px.x, y := t.px.y, z := t.px.z }) ∧
    (i = .colorDefault → t.px = { s.px with r := t.px.r, g := t.px.g, b := t.px.b }) ∧
    (i = .lumaFetch → t.px = { s.px with y8 := t.px.y8 }) ∧
    (i = .chromaFetch → t.px = { s.px with u := t.px.u, v := t.px.v }) ∧
    (i = .yuv2rgb → t.px = { s.px with r := t.px.r, g := t.px.g, b := t.px.b }) ∧
    (i = .packRgba → t.px = { s.px with w := t.px.w })

/-! ## EMIT -/

/-- Rule R230: EMIT stores X, Y, Z at `points_addr + 12 * n` and the colour at `colors_addr + 4 * n`, little-endian,
with the count before the increment; every other byte, and everything but memory, is unchanged. -/
def Obligations.EmitStoresTheEntry : Prop :=
  ∀ s : State,
    let p := s.run.desc.pointsAddr.toNat + 12 * s.run.n.toNat
    let q := s.run.desc.colorsAddr.toNat + 4 * s.run.n.toNat
    Memory.wf s.mem = true → p % 4 = 0 → q % 4 = 0 →
    admitted s.platform .write p 4 = true → admitted s.platform .write (p + 4) 4 = true →
    admitted s.platform .write (p + 8) 4 = true → admitted s.platform .write q 4 = true →
    (p + 12 ≤ q ∨ q + 4 ≤ p) →
    (∀ a, (p ≤ a ∧ a < p + 12) ∨ (q ≤ a ∧ a < q + 4) →
      (inPointEntries s.run.desc a && inColorEntries s.run.desc a) = false) →
      ∃ t, exec .emit s = .next t ∧ t = { s with mem := t.mem } ∧
        HoldsWord t.mem p s.px.x ∧ HoldsWord t.mem (p + 4) s.px.y ∧ HoldsWord t.mem (p + 8) s.px.z ∧
        HoldsWord t.mem q s.px.w ∧
        ∀ a, ¬(p ≤ a ∧ a < p + 12) → ¬(q ≤ a ∧ a < q + 4) → Memory.read t.mem a = Memory.read s.mem a

/-- The frame of EMIT in every case, faults and overlapping arrays among them (rules R230, R232 and R234): bytes
outside the entry are unchanged, memory stays canonical, and of the rest only the flags may change, by a fault. -/
def Obligations.EmitTouchesOnlyItsEntry : Prop :=
  ∀ s : State,
    let p := s.run.desc.pointsAddr.toNat + 12 * s.run.n.toNat
    let q := s.run.desc.colorsAddr.toNat + 4 * s.run.n.toNat
    Memory.wf s.mem = true →
      ∃ t, exec .emit s = .next t ∧ t = { s with mem := t.mem, status := t.status, free := t.free } ∧
        (t.status = s.status ∨ ∃ k, t.status = statusFault k s.status) ∧ Memory.wf t.mem = true ∧
        ∀ a, ¬(p ≤ a ∧ a < p + 12) → ¬(q ≤ a ∧ a < q + 4) → Memory.read t.mem a = Memory.read s.mem a

/-- Rules R230, R245 and R249: EMIT's writes are tried in order, and a fault on one leaves the earlier ones done and
the later ones not done. Stated where the bytes are in one output array only. -/
def Obligations.EmitStopsAtItsFirstFault : Prop :=
  ∀ s : State,
    let p := s.run.desc.pointsAddr.toNat + 12 * s.run.n.toNat
    let q := s.run.desc.colorsAddr.toNat + 4 * s.run.n.toNat
    let one := Memory.writeBytes s.mem p s.px.x 4
    let two := Memory.writeBytes one (p + 4) s.px.y 4
    let three := Memory.writeBytes two (p + 8) s.px.z 4
    (p % 4 ≠ 0 → exec .emit s = .next (raise .misaligned s)) ∧
    (p % 4 = 0 → admitted s.platform .write p 4 = false → exec .emit s = .next (raise .accessFault s)) ∧
    ((∀ a, p ≤ a ∧ a < p + 12 → (inPointEntries s.run.desc a && inColorEntries s.run.desc a) = false) →
      p % 4 = 0 → admitted s.platform .write p 4 = true →
      (admitted s.platform .write (p + 4) 4 = false →
        exec .emit s = .next (raise .accessFault { s with mem := one })) ∧
      (admitted s.platform .write (p + 4) 4 = true → admitted s.platform .write (p + 8) 4 = false →
        exec .emit s = .next (raise .accessFault { s with mem := two })) ∧
      (admitted s.platform .write (p + 4) 4 = true → admitted s.platform .write (p + 8) 4 = true →
        (q % 4 ≠ 0 → exec .emit s = .next (raise .misaligned { s with mem := three })) ∧
        (q % 4 = 0 → admitted s.platform .write q 4 = false →
          exec .emit s = .next (raise .accessFault { s with mem := three }))))

/-! ## The engine -/

/-- Rules R9 and R272: at the engine's turn with no run busy, nothing happens but that a waiting turn is taken. -/
def Obligations.IdleEngineDoesNothing : Prop :=
  ∀ s : State, EngineMoves s → s.status.busy = false → step s = .next { s with turns := s.turns.tail }

/-- Rule R157: at the end of the scan the engine's turn is the completion, which writes `OUT_USED` and the two flags and
nothing else. -/
def Obligations.CompletionReportsTheCount : Prop :=
  ∀ s : State, EngineMoves s → s.status.busy = true →
    (s.run.n = s.run.desc.capacity ∨ s.run.desc.width = 0#32 ∨ s.run.r = s.run.desc.height) →
      step s = .next { s with
        used := s.run.n
        status := { s.status with busy := false, done := true }
        turns := s.turns.tail }

/-- Rules R153 and R159: inside the scan, where no access faults and the arrays do not overlap, one step stores the
entry of the pixel the counters name, whatever its depth, and moves the counters to the next pixel; flags, registers,
context and every other byte are unchanged. -/
def Obligations.PixelStepStoresThePixelAndAdvances : Prop :=
  ∀ s : State, EngineMoves s → s.status.busy = true → scanOver s.run = false → Memory.wf s.mem = true →
    let d := s.run.desc
    let r := s.run.r.toNat
    let c := s.run.c.toNat
    let p := pointAddr d s.run.n.toNat
    let q := colorEntryAddr d s.run.n.toNat
    PixelAdmitted s.platform d r c s.run.n.toNat → depthSampleAddr d r c % 2 = 0 → p % 4 = 0 → q % 4 = 0 →
    (∀ a ∈ pixelBytes d r c, runWritesByte d a = false) → (p + 12 ≤ q ∨ q + 4 ≤ p) →
    (∀ a, (p ≤ a ∧ a < p + 12) ∨ (q ≤ a ∧ a < q + 4) → (inPointEntries d a && inColorEntries d a) = false) →
      ∃ m, step s = .next { s with
          mem := m
          px := Pixel.clear
          turns := s.turns.tail
          run := { s.run with
            n := s.run.n + 1#32
            c := if s.run.c + 1#32 = d.width then 0#32 else s.run.c + 1#32
            r := if s.run.c + 1#32 = d.width then s.run.r + 1#32 else s.run.r } } ∧
        HoldsWord m p (pointX s.ctx s.mem d r c) ∧ HoldsWord m (p + 4) (pointY s.ctx s.mem d r c) ∧
        HoldsWord m (p + 8) (depthAt s.ctx s.mem d r c) ∧ HoldsWord m q (colorAt s.mem d r c) ∧
        ∀ a, ¬(p ≤ a ∧ a < p + 12) → ¬(q ≤ a ∧ a < q + 4) → Memory.read m a = Memory.read s.mem a

/-- Rules R77, R248 and R249. An access is admitted exactly when each of its bytes is below 2^32, outside the register
block (rule R21), and in a stretch of the platform's memory that admits its kind. The first access that faults, in the order depth, luma, U, V, X, Y, Z, colour, decides the
cause; the step then takes that fault, leaves the counters, `OUT_USED`, `DONE`, registers and context as they were, and
changes no byte outside the points entry of the pixel, and no byte at all when the access was a read. Where no access
faults the flags stay and the count goes up. -/
def Obligations.FaultInAPixelStopsTheRunPrecisely : Prop :=
  (∀ (p : Platform) (k : AccessKind) (a n : Nat), admitted p k a n = true ↔
    ∀ i, i < n → a + i < 2 ^ 32 ∧ ¬(unprojBase p ≤ a + i ∧ a + i < unprojBase p + 128) ∧
      ∃ g ∈ p.regions, g.base ≤ a + i ∧ a + i < g.base + g.size ∧
        (k = .read → g.readable = true) ∧ (k = .write → g.writable = true)) ∧
  ∀ s : State, EngineMoves s → s.status.busy = true → scanOver s.run = false → Memory.wf s.mem = true →
    let reads := pixelReads s.run.desc s.run.r.toNat s.run.c.toNat
    let writes := pixelWrites s.run.desc s.run.n.toNat
    let p := s.run.desc.pointsAddr.toNat + 12 * s.run.n.toNat
    (∀ k, firstFault s.platform (reads ++ writes) = some k →
      ∃ m f,
        step s = .next { s with
          status := (raise k s).status
          mem := m
          px := Pixel.clear
          turns := s.turns.tail
          free := f } ∧
        (firstFault s.platform reads = some k → m = s.mem) ∧ Memory.wf m = true ∧
        ∀ a, ¬(p ≤ a ∧ a < p + 12) → Memory.read m a = Memory.read s.mem a) ∧
    (firstFault s.platform (reads ++ writes) = none →
      ∃ t, step s = .next t ∧ t.status = s.status ∧ t.run.n = s.run.n + 1#32)

/-- Rule R112: the order of the stage table and the order of the accesses agree on every observable. -/
def Obligations.TableOrderAgreesWithAccessOrder : Prop :=
  ∀ s : State, s.status.busy = true →
    pixelStepOver (tableStages s.run.desc.hasColor) s = pixelStepOver (pixelStages s.run.desc.hasColor) s

/-- Rule R53: the working values are no state between steps: what a pixel step does is the same whatever they hold. -/
def Obligations.WorkingValuesAreNoState : Prop :=
  ∀ (s : State) (v : Pixel), s.status.busy = true → pixelStep (s.setPx v) = pixelStep s

/-- Rules R163 and R80: a pixel step reads no memory but the pixel's own input bytes. Two systems that differ only in
memory, and agree on those bytes, do the same, and the entry they complete is the same. -/
def Obligations.PixelStepReadsOnlyItsInputBytes : Prop :=
  ∀ (s : State) (m : List Host.Cell), EngineMoves s → s.status.busy = true → scanOver s.run = false →
    Memory.wf s.mem = true → Memory.wf m = true →
    (∀ a ∈ pixelBytes s.run.desc s.run.r.toNat s.run.c.toNat, Memory.read m a = Memory.read s.mem a) →
      ∃ t u, step s = .next t ∧ step (s.setMem m) = .next u ∧ u = t.setMem u.mem ∧
        (∀ a, Memory.read m a = Memory.read s.mem a → Memory.read u.mem a = Memory.read t.mem a) ∧
        (t.status.busy = true → ∀ a,
          (pointAddr s.run.desc s.run.n.toNat ≤ a ∧ a < pointAddr s.run.desc s.run.n.toNat + 12) ∨
          (colorEntryAddr s.run.desc s.run.n.toNat ≤ a ∧ a < colorEntryAddr s.run.desc s.run.n.toNat + 4) →
            Memory.read u.mem a = Memory.read t.mem a)

/-! ## The whole machine -/

/-- The reset state meets the invariant. -/
def Obligations.ResetMeetsTheInvariant : Prop := Inv State.reset

/-- Every step keeps the invariant: canonical memory, legal flags (rules R24 and R139), a busy run whose snapshot
agrees with the registers (rule R50) and whose counters are in range (rule R52), a completed run's count (rules R44
and R151), no working value between steps (rule R53). -/
def Obligations.StepKeepsTheInvariant : Prop :=
  ∀ s t : State, Inv s → step s = .next t → Inv t

/-- Rules R151 and R158: from the host's UNPROJECT write on an idle block with a context, where the premises of the run
hold, the system takes one step for the launch, `N = min(capacity, width * height)` pixel steps and one completion, and
then every output entry holds the point and colour of its pixel, `OUT_USED = N`, and every other byte, the context and
every other register are unchanged. -/
def Obligations.RunComputesTheWholeFrame : Prop :=
  ∀ s : State, Idle s → s.status.valid = true → Memory.wf s.mem = true →
    s.turns = [commandWrite s.platform 2#32] → RunPremises s.platform s.desc →
      ∃ t, Host.Core.run core (pixelCount s.desc + 2) s = .next t ∧
        t.status = { s.status with busy := false, done := true } ∧
        t.used = BitVec.ofNat 32 (pixelCount s.desc) ∧
        t.cfg = s.cfg ∧ t.ctx = s.ctx ∧ t.desc = s.desc ∧ t.platform = s.platform ∧ t.turns = [] ∧
        (∀ k, k < pixelCount s.desc → ∀ e ∈ entryOf s.ctx s.mem s.desc k, HoldsWord t.mem e.1 e.2) ∧
        (∀ a, runWritesByte s.desc a = false → Memory.read t.mem a = Memory.read s.mem a)

/-- Rules R161 and R290: left to itself, a busy run ends, by completion or by a fault, after at most one step for each
pixel still to visit and one more. -/
def Obligations.BusyRunEnds : Prop :=
  ∀ s : State, Inv s → s.turns = [] → s.status.busy = true →
    ∃ k t, k ≤ pixelCount s.run.desc - s.run.n.toNat + 1 ∧ Host.Core.run core k s = .next t ∧ t.status.busy = false

/-- Rule R27: the context is written only by a CREATE that succeeds. A step that is not the reset input either leaves
it, or had no context before and has the one of the staging registers after. -/
def Obligations.OnlyCreateWritesTheContext : Prop :=
  ∀ s t : State, (∀ k, s.turns.head? ≠ some (.reset k)) → step s = .next t →
    t.ctx = s.ctx ∨
    (s.status.valid = false ∧ t.status.valid = true ∧
      t.ctx = {
        ppx := s.cfg.ppx
        ppy := s.cfg.ppy
        fx := s.cfg.fx
        fy := s.cfg.fy
        depthUnit := s.cfg.depthUnit
        minDepth := s.cfg.minMargin
        maxDepth := fsub (fmul 0x477FC000#32 s.cfg.depthUnit) s.cfg.maxMargin })

/-- Rule R44: `OUT_USED` is written only at the completion of a run, with the count of that run; no other step but the
reset input changes it. -/
def Obligations.OnlyCompletionWritesTheCount : Prop :=
  ∀ s t : State, (∀ k, s.turns.head? ≠ some (.reset k)) → step s = .next t →
    t.used = s.used ∨
    (s.status.busy = true ∧ t.status.busy = false ∧ t.status.done = true ∧ t.used = s.run.n)

/-- Rule R84: a launch puts its run in its span beside the runs already there, and a span ends only at a read of `STATUS`
that shows `BUSY = 0`, or by reset. A host write to memory that would race with a run in its span is a fault of the
model (U3; log 11), and one that races with nothing stores its bytes and changes nothing else. That a write of 1, 2 or
4 bytes at any address lands little-endian is the model's choice (log 13). -/
def Obligations.HostMemoryWritesRaceOrStore : Prop :=
  (∀ s : State, Idle s → s.status.valid = true →
    ∃ t, exec .unproject s = .next t ∧ ∀ d, d ∈ t.exclusive ↔ d = s.desc ∨ d ∈ s.exclusive) ∧
  (∀ s t : State, step s = .next t →
    (∀ d ∈ s.exclusive, d ∈ t.exclusive) ∨ (∃ k, s.turns.head? = some (.reset k)) ∨
    (s.status.busy = false ∧ ∃ a width, s.turns.head? = some (.hostRead a width) ∧
      hostTarget s.platform a.toNat (widthBytes width) = .register .status)) ∧
  ∀ (s : State) (a : Word) (width : Width) (v : Word), Memory.wf s.mem = true →
    hostTarget s.platform a.toNat (widthBytes width) = .memory →
    ((∃ d ∈ s.exclusive, ∃ i, i < widthBytes width ∧
        (runReadsByte d (a.toNat + i) = true ∨ runWritesByte d (a.toNat + i) = true)) →
      hostWrite a width v s = .fault .hostRace) ∧
    ((∀ d ∈ s.exclusive, ∀ i, i < widthBytes width →
        runReadsByte d (a.toNat + i) = false ∧ runWritesByte d (a.toNat + i) = false) →
      ∃ m, hostWrite a width v s = .next { s with mem := m } ∧ Memory.wf m = true ∧
        (∀ i, i < widthBytes width → Memory.read m (a.toNat + i) = v.extractLsb' (8 * i) 8) ∧
        ∀ x, ¬(a.toNat ≤ x ∧ x < a.toNat + widthBytes width) → Memory.read m x = Memory.read s.mem x)

/-- Rule R84: a host read of memory that touches a byte written by a launched run in its span is a fault of the model
(U3; log 11); any other read returns the bytes, and changes nothing but `hostData`. The widths, the little-endian order
and the zero extension of the value are the model's choice (logs 6 and 13). -/
def Obligations.HostMemoryReadsRaceOrReturn : Prop :=
  ∀ (s : State) (a : Word) (width : Width),
    hostTarget s.platform a.toNat (widthBytes width) = .memory →
    ((∃ d ∈ s.exclusive, ∃ i, i < widthBytes width ∧ runWritesByte d (a.toNat + i) = true) →
      hostRead a width s = .fault .hostRace) ∧
    ((∀ d ∈ s.exclusive, ∀ i, i < widthBytes width → runWritesByte d (a.toNat + i) = false) →
      ∃ v : Word, hostRead a width s = .next { s with hostData := v } ∧
        (∀ i, i < widthBytes width → v.extractLsb' (8 * i) 8 = Memory.read s.mem (a.toNat + i)) ∧
        v.toNat < 2 ^ (8 * widthBytes width))

/-- Memories that read alike at every address are equal as data, in the canonical list form and with the reading of
unlisted bytes that are the model's choice (log 2). -/
def Obligations.EqualReadsMeanEqualMemories : Prop :=
  ∀ m n : List Host.Cell, Memory.wf m = true → Memory.wf n = true →
    (∀ a, Memory.read m a = Memory.read n a) → m = n

/-! ## Binary32 -/

/-- Rule R12: on finite operands each operation answers the right sign and the rounded bits of the exact product,
quotient, difference or integer; those bits are a nearest finite number to it, on a tie the one with an even fraction,
and an infinity exactly from half a unit above the largest finite number on; `fneg` inverts the sign alone. Magnitudes
are in units of `2^-149`. -/
def Obligations.RoundingIsToNearestTiesToEven : Prop :=
  (∀ num den : Nat, 0 < den →
    let b := roundBits num den
    let value (x : Nat) : Int := scaledMagnitude (x / 2 ^ 23) (x % 2 ^ 23)
    (b = infinityBits ↔ (2 ^ 25 - 1) * 2 ^ 252 * den ≤ num) ∧ b ≤ infinityBits ∧
    (b < infinityBits → ∀ q, q < infinityBits →
      |value b * den - num| ≤ |value q * den - num| ∧
      (q ≠ b → |value b * den - num| = |value q * den - num| → b % 2 = 0))) ∧
  (∀ a b : Word, exponentField a < 255 → exponentField b < 255 →
    let difference := finiteValue a - finiteValue b
    (signBit (fmul a b) = (signBit a ^^ signBit b) ∧
      magnitudeBits (fmul a b) = roundBits (finiteMagnitude a * finiteMagnitude b) (2 ^ 149)) ∧
    (finiteMagnitude b ≠ 0 →
      signBit (fdiv a b) = (signBit a ^^ signBit b) ∧
      magnitudeBits (fdiv a b) = roundBits (finiteMagnitude a * 2 ^ 149) (finiteMagnitude b)) ∧
    signBit (fsub a b) = (if difference = 0 then signBit a && !signBit b else decide (difference < 0)) ∧
    magnitudeBits (fsub a b) = roundBits difference.natAbs 1) ∧
  (∀ n : Word, signBit (i2f n) = false ∧ magnitudeBits (i2f n) = roundBits (n.toNat * 2 ^ 149) 1) ∧
  ∀ x : Word, signBit (fneg x) = !signBit x ∧ magnitudeBits (fneg x) = magnitudeBits x

/-- Rule R12, conversion: `i2f` is exact below `2^24`. -/
def Obligations.SmallIntegersConvertExactly : Prop :=
  ∀ n : Word, n.toNat < 2 ^ 24 →
    exponentField (i2f n) < 255 ∧ finiteValue (i2f n) = (n.toNat : Int) * 2 ^ 149

/-- Rules R12 and R178: any operation with a NaN operand, and `0 / 0`, `inf / inf`, `0 * inf` and `inf - inf`, give a
NaN, whichever NaN it is (U6); every other operation on an infinite operand gives the infinity or zero of IEEE 754
with its sign. -/
def Obligations.InvalidOperationsGiveNaN : Prop :=
  (infinity false = 0x7F800000#32 ∧ infinity true = 0xFF800000#32 ∧ zero false = 0x00000000#32 ∧
    zero true = 0x80000000#32) ∧
  ∀ a b : Word,
    (isNaN a = true ∨ isNaN b = true →
      isNaN (fsub a b) = true ∧ isNaN (fmul a b) = true ∧ isNaN (fdiv a b) = true) ∧
    (isZero a = true → isZero b = true → isNaN (fdiv a b) = true) ∧
    (isInf a = true → isInf b = true → isNaN (fdiv a b) = true) ∧
    (isZero a = true → isInf b = true → isNaN (fmul a b) = true ∧ isNaN (fmul b a) = true) ∧
    (isInf a = true → isNaN (fsub a a) = true) ∧
    (isInf a = true → isNaN b = false → isZero b = false →
      fmul a b = infinity (signBit a ^^ signBit b) ∧ fmul b a = infinity (signBit a ^^ signBit b)) ∧
    (isInf a = true → exponentField b < 255 →
      fdiv a b = infinity (signBit a ^^ signBit b) ∧ fdiv b a = zero (signBit a ^^ signBit b) ∧
      fsub a b = infinity (signBit a) ∧ fsub b a = infinity (!signBit a)) ∧
    (isInf a = true → isInf b = true → signBit a ≠ signBit b → fsub a b = infinity (signBit a))

/-- Rule R174: negating the depth, the product or the quotient gives one pattern (where none is a NaN, whose pattern is
not given), while `0 - d` is not the negation of `d = +0`. -/
def Obligations.NegationMayBeMovedThroughTheAxis : Prop :=
  (∀ d t f : Word, isNaN (fmul d t) = false → isNaN (fdiv (fmul d t) f) = false →
    fdiv (fmul (fneg d) t) f = fdiv (fneg (fmul d t)) f ∧
    fdiv (fneg (fmul d t)) f = fneg (fdiv (fmul d t) f)) ∧
  fsub 0x00000000#32 0x00000000#32 ≠ fneg 0x00000000#32

/-- Rule R176: a quotient by a zero focal length is an infinity of the exclusive-or of the signs for a finite non-zero
dividend, and a NaN for a zero or NaN one. -/
def Obligations.ZeroFocalLengthGivesInfinityOrNaN : Prop :=
  ∀ t f : Word, isZero f = true →
    (exponentField t < 255 → isZero t = false → fdiv t f = infinity (signBit t ^^ signBit f)) ∧
    (isZero t = true ∨ isNaN t = true → isNaN (fdiv t f) = true)

/-- Rule R177: with a zero sample and a positive finite depth unit the depth is `+0`, and the coordinates are zeros
whose signs are those of the offset and the focal length, the row's inverted. -/
def Obligations.ZeroDepthGivesSignedZeros : Prop :=
  ∀ unit pixel principal focal : Word,
    signBit unit = false → exponentField unit < 255 →
    exponentField (fsub (i2f pixel) principal) < 255 → isNaN focal = false → isZero focal = false →
      lineariseSample 0#16 unit = 0x00000000#32 ∧
      backprojectAxis 0x00000000#32 pixel principal focal =
        zero (signBit (fsub (i2f pixel) principal) ^^ signBit focal) ∧
      backprojectAxis (fneg 0x00000000#32) pixel principal focal =
        zero (!signBit (fsub (i2f pixel) principal) ^^ signBit focal)

/-- Rule R182: division by 1.0 is exact, so with `fx = fy = 1` a coordinate is the rounded product alone. -/
def Obligations.DivisionByOneIsExact : Prop :=
  ∀ x : Word, isNaN x = false → fdiv x 0x3F800000#32 = x
end

