-- ==== Sys2Proof/Laws/Accesses.lean ====
section
/-! SUPPORT. The engine's port in terms of the fault of one access (20_memory.md rules R77 and R78), and the first fault
of a list of accesses (60_exceptions.md rule R248); when a host access races (20_memory.md rule R84). -/

namespace Sys2Proof.Safety

open Sys2Proof.Machine

/-- `MemRead` faults exactly as its access does, and otherwise fetches. -/
theorem engineRead_eq (a n : Nat) (s : State) :
    engineRead a n s = match accessFaultOf s.platform ⟨.read, a, n⟩ with
      | some k => .error k
      | none => .ok (fetchBytes n a s) := by
  unfold engineRead accessFaultOf
  repeat' split
  all_goals simp_all

/-- `MemWrite` of a word faults exactly as its access does, and otherwise stores. -/
theorem engineWrite_eq (a : Nat) (v : Word) (s : State) :
    engineWrite a v s = match accessFaultOf s.platform ⟨.write, a, 4⟩ with
      | some k => .error k
      | none => .ok (putWord a v s) := by
  unfold engineWrite accessFaultOf
  repeat' split
  all_goals simp_all

/-- The fault of one access is `Misaligned` or `AccessFault`. -/
theorem accessFaultOf_cause {p : Platform} {x : Access} {k : FaultCause} (h : accessFaultOf p x = some k) :
    k = .misaligned ∨ k = .accessFault := by
  unfold accessFaultOf at h
  repeat' split at h
  all_goals simp_all

@[simp] theorem firstFault_nil (p : Platform) : firstFault p [] = none := rfl

theorem firstFault_cons_fault {p : Platform} {x : Access} {k : FaultCause} (xs : List Access)
    (h : accessFaultOf p x = some k) : firstFault p (x :: xs) = some k := by
  simp [firstFault, h]

theorem firstFault_cons_clean {p : Platform} {x : Access} (xs : List Access) (h : accessFaultOf p x = none) :
    firstFault p (x :: xs) = firstFault p xs := by
  simp [firstFault, h]

/-- The first fault of two lists in a row is the first list's where it has one. -/
theorem firstFault_append (p : Platform) (xs ys : List Access) :
    firstFault p (xs ++ ys) = (firstFault p xs).or (firstFault p ys) := by
  simp [firstFault, List.findSome?_append]

/-- A host access races when a run in its span touches one of its bytes. -/
theorem racesWith_iff (touches : Descriptor → Nat → Bool) (s : State) (a n : Nat) :
    racesWith touches s a n = true ↔ ∃ d ∈ s.exclusive, ∃ i, i < n ∧ touches d (a + i) = true := by
  simp [racesWith]

end Sys2Proof.Safety
end

