-- ==== Sys2Proof/Laws/Memory.lean ====
section
/-! SUPPORT. The laws of system memory: a read after a write, and the canonical form, which every operation keeps. -/

namespace Sys2Proof.Machine

/-- Nothing is listed below where a canonical list starts. -/
theorem Memory.read_below {m : List Host.Cell} {lo a : Nat} (h : Memory.wfFrom lo m = true) (ha : a < lo) :
    Memory.read m a = memoryFill := by
  cases m with
  | nil => rfl
  | cons cell rest =>
    obtain ⟨k, v⟩ := cell
    simp only [Memory.wfFrom, Bool.and_eq_true, decide_eq_true_eq] at h
    have : a < k := by omega
    simp [Memory.read, this]

/-- A canonical list is canonical from any lower start. -/
theorem Memory.wfFrom_mono {m : List Host.Cell} {lo lo' : Nat} (h : Memory.wfFrom lo m = true) (hle : lo' ≤ lo) :
    Memory.wfFrom lo' m = true := by
  cases m with
  | nil => rfl
  | cons cell rest =>
    obtain ⟨k, v⟩ := cell
    simp only [Memory.wfFrom, Bool.and_eq_true, decide_eq_true_eq] at h ⊢
    refine ⟨⟨⟨?_, h.1.1.2⟩, h.1.2⟩, h.2⟩
    omega

/-- A write inside the address space keeps the canonical form, from any start at or below the address. -/
theorem Memory.write_wfFrom {m : List Host.Cell} {lo a : Nat} {b : Byte} (h : Memory.wfFrom lo m = true)
    (hlo : lo ≤ a) (ha : a < 2 ^ 32) : Memory.wfFrom lo (Memory.write m a b) = true := by
  induction m generalizing lo with
  | nil =>
    unfold Memory.write
    split <;> simp_all [Memory.wfFrom]
  | cons cell rest ih =>
    obtain ⟨k, v⟩ := cell
    simp only [Memory.wfFrom, Bool.and_eq_true, decide_eq_true_eq] at h
    obtain ⟨⟨⟨hk, hk32⟩, hv⟩, hrest⟩ := h
    unfold Memory.write
    split
    · rename_i hak
      split
      · simp only [Memory.wfFrom, Bool.and_eq_true, decide_eq_true_eq]
        exact ⟨⟨⟨hk, hk32⟩, hv⟩, hrest⟩
      · rename_i hb
        simp only [Memory.wfFrom, Bool.and_eq_true, decide_eq_true_eq]
        exact ⟨⟨⟨hlo, ha⟩, hb⟩, ⟨⟨by omega, hk32⟩, hv⟩, hrest⟩
    · split
      · rename_i hak
        subst hak
        split
        · exact Memory.wfFrom_mono hrest (by omega)
        · rename_i hb
          simp only [Memory.wfFrom, Bool.and_eq_true, decide_eq_true_eq]
          exact ⟨⟨⟨hlo, ha⟩, hb⟩, hrest⟩
      · simp only [Memory.wfFrom, Bool.and_eq_true, decide_eq_true_eq]
        exact ⟨⟨⟨hk, hk32⟩, hv⟩, ih hrest (by omega)⟩

/-- A write inside the address space keeps the canonical form. -/
theorem Memory.write_wf {m : List Host.Cell} {a : Nat} {b : Byte} (h : Memory.wf m = true) (ha : a < 2 ^ 32) :
    Memory.wf (Memory.write m a b) = true :=
  Memory.write_wfFrom h (Nat.zero_le a) ha

/-- Reading the byte just written. -/
theorem Memory.read_write_same_from {m : List Host.Cell} {lo a : Nat} {b : Byte} (h : Memory.wfFrom lo m = true) :
    Memory.read (Memory.write m a b) a = b := by
  induction m generalizing lo with
  | nil =>
    unfold Memory.write
    split <;> simp_all [Memory.read]
  | cons cell rest ih =>
    obtain ⟨k, v⟩ := cell
    simp only [Memory.wfFrom, Bool.and_eq_true, decide_eq_true_eq] at h
    unfold Memory.write
    split
    · rename_i hak
      split <;> simp_all [Memory.read]
    · split
      · rename_i hak
        subst hak
        split
        · rename_i hb
          rw [hb, Memory.read_below h.2 (by omega)]
        · simp [Memory.read]
      · rename_i h1 h2
        simp [Memory.read, h1, h2, ih h.2]

/-- Reading the byte just written. -/
theorem Memory.read_write_same {m : List Host.Cell} {a : Nat} {b : Byte} (h : Memory.wf m = true) :
    Memory.read (Memory.write m a b) a = b :=
  Memory.read_write_same_from h

/-- A write leaves every other byte alone. -/
theorem Memory.read_write_other_from {m : List Host.Cell} {lo a x : Nat} {b : Byte} (h : Memory.wfFrom lo m = true)
    (hx : x ≠ a) : Memory.read (Memory.write m a b) x = Memory.read m x := by
  induction m generalizing lo with
  | nil =>
    unfold Memory.write
    split
    · rfl
    · simp [Memory.read, hx]
  | cons cell rest ih =>
    obtain ⟨k, v⟩ := cell
    simp only [Memory.wfFrom, Bool.and_eq_true, decide_eq_true_eq] at h
    unfold Memory.write
    split
    · rename_i hak
      split
      · rfl
      · by_cases hxa : x < a
        · have : x < k := by omega
          simp [Memory.read, hxa, this]
        · simp [Memory.read, hxa, hx]
    · split
      · rename_i hak
        subst hak
        split
        · by_cases hxa : x < a
          · simp [Memory.read, hxa, Memory.read_below h.2 (show x < a + 1 by omega)]
          · simp [Memory.read, hxa, hx]
        · simp [Memory.read, hx]
      · simp only [Memory.read]
        rw [ih h.2]

/-- A write leaves every other byte alone. -/
theorem Memory.read_write_other {m : List Host.Cell} {a x : Nat} {b : Byte} (h : Memory.wf m = true) (hx : x ≠ a) :
    Memory.read (Memory.write m a b) x = Memory.read m x :=
  Memory.read_write_other_from h hx

/-- Writing bytes inside the address space keeps the canonical form. -/
theorem Memory.writeBytes_wf {m : List Host.Cell} {a : Nat} {v : Word} (n : Nat) (h : Memory.wf m = true)
    (ha : a + n ≤ 2 ^ 32) : Memory.wf (Memory.writeBytes m a v n) = true := by
  induction n with
  | zero => exact h
  | succ n ih => exact Memory.write_wf (ih (by omega)) (by omega)

/-- What every byte reads after `n` bytes of `v` are written from `a` upward. -/
theorem Memory.read_writeBytes {m : List Host.Cell} {a x : Nat} {v : Word} (n : Nat) (h : Memory.wf m = true)
    (ha : a + n ≤ 2 ^ 32) :
    Memory.read (Memory.writeBytes m a v n) x =
      if a ≤ x ∧ x < a + n then wordByte v (x - a) else Memory.read m x := by
  induction n with
  | zero =>
    have : ¬(a ≤ x ∧ x < a + 0) := by omega
    rw [if_neg this]
    rfl
  | succ n ih =>
    have hwf := Memory.writeBytes_wf (v := v) n h (show a + n ≤ 2 ^ 32 by omega)
    simp only [Memory.writeBytes]
    by_cases hx : x = a + n
    · subst hx
      rw [Memory.read_write_same hwf, if_pos (by omega)]
      congr 1
      omega
    · rw [Memory.read_write_other hwf hx, ih (by omega)]
      by_cases hin : a ≤ x ∧ x < a + n
      · rw [if_pos hin, if_pos (by omega)]
      · rw [if_neg hin, if_neg (by omega)]

end Sys2Proof.Machine
end

