-- ==== Sys2Proof/Laws/State.lean ====
section
/-! SUPPORT. What each named update of a field leaves in each field: true by `rfl`, tagged `@[simp]`, so that no proof
unfolds a record update. -/

namespace Sys2Proof.Machine

@[simp] theorem State.setStatus_status (s : State) (v : Status) : (s.setStatus v).status = v := rfl
@[simp] theorem State.setStatus_cfg (s : State) (v : Status) : (s.setStatus v).cfg = s.cfg := rfl
@[simp] theorem State.setStatus_ctx (s : State) (v : Status) : (s.setStatus v).ctx = s.ctx := rfl
@[simp] theorem State.setStatus_desc (s : State) (v : Status) : (s.setStatus v).desc = s.desc := rfl
@[simp] theorem State.setStatus_used (s : State) (v : Status) : (s.setStatus v).used = s.used := rfl
@[simp] theorem State.setStatus_run (s : State) (v : Status) : (s.setStatus v).run = s.run := rfl
@[simp] theorem State.setStatus_px (s : State) (v : Status) : (s.setStatus v).px = s.px := rfl
@[simp] theorem State.setStatus_mem (s : State) (v : Status) : (s.setStatus v).mem = s.mem := rfl
@[simp] theorem State.setStatus_platform (s : State) (v : Status) : (s.setStatus v).platform = s.platform := rfl
@[simp] theorem State.setStatus_turns (s : State) (v : Status) : (s.setStatus v).turns = s.turns := rfl
@[simp] theorem State.setStatus_hostData (s : State) (v : Status) : (s.setStatus v).hostData = s.hostData := rfl
@[simp] theorem State.setStatus_exclusive (s : State) (v : Status) : (s.setStatus v).exclusive = s.exclusive := rfl
@[simp] theorem State.setStatus_free (s : State) (v : Status) : (s.setStatus v).free = s.free := rfl

@[simp] theorem State.setCfg_status (s : State) (v : Staging) : (s.setCfg v).status = s.status := rfl
@[simp] theorem State.setCfg_cfg (s : State) (v : Staging) : (s.setCfg v).cfg = v := rfl
@[simp] theorem State.setCfg_ctx (s : State) (v : Staging) : (s.setCfg v).ctx = s.ctx := rfl
@[simp] theorem State.setCfg_desc (s : State) (v : Staging) : (s.setCfg v).desc = s.desc := rfl
@[simp] theorem State.setCfg_used (s : State) (v : Staging) : (s.setCfg v).used = s.used := rfl
@[simp] theorem State.setCfg_run (s : State) (v : Staging) : (s.setCfg v).run = s.run := rfl
@[simp] theorem State.setCfg_px (s : State) (v : Staging) : (s.setCfg v).px = s.px := rfl
@[simp] theorem State.setCfg_mem (s : State) (v : Staging) : (s.setCfg v).mem = s.mem := rfl
@[simp] theorem State.setCfg_platform (s : State) (v : Staging) : (s.setCfg v).platform = s.platform := rfl
@[simp] theorem State.setCfg_turns (s : State) (v : Staging) : (s.setCfg v).turns = s.turns := rfl
@[simp] theorem State.setCfg_hostData (s : State) (v : Staging) : (s.setCfg v).hostData = s.hostData := rfl
@[simp] theorem State.setCfg_exclusive (s : State) (v : Staging) : (s.setCfg v).exclusive = s.exclusive := rfl
@[simp] theorem State.setCfg_free (s : State) (v : Staging) : (s.setCfg v).free = s.free := rfl

@[simp] theorem State.setCtx_status (s : State) (v : Context) : (s.setCtx v).status = s.status := rfl
@[simp] theorem State.setCtx_cfg (s : State) (v : Context) : (s.setCtx v).cfg = s.cfg := rfl
@[simp] theorem State.setCtx_ctx (s : State) (v : Context) : (s.setCtx v).ctx = v := rfl
@[simp] theorem State.setCtx_desc (s : State) (v : Context) : (s.setCtx v).desc = s.desc := rfl
@[simp] theorem State.setCtx_used (s : State) (v : Context) : (s.setCtx v).used = s.used := rfl
@[simp] theorem State.setCtx_run (s : State) (v : Context) : (s.setCtx v).run = s.run := rfl
@[simp] theorem State.setCtx_px (s : State) (v : Context) : (s.setCtx v).px = s.px := rfl
@[simp] theorem State.setCtx_mem (s : State) (v : Context) : (s.setCtx v).mem = s.mem := rfl
@[simp] theorem State.setCtx_platform (s : State) (v : Context) : (s.setCtx v).platform = s.platform := rfl
@[simp] theorem State.setCtx_turns (s : State) (v : Context) : (s.setCtx v).turns = s.turns := rfl
@[simp] theorem State.setCtx_hostData (s : State) (v : Context) : (s.setCtx v).hostData = s.hostData := rfl
@[simp] theorem State.setCtx_exclusive (s : State) (v : Context) : (s.setCtx v).exclusive = s.exclusive := rfl
@[simp] theorem State.setCtx_free (s : State) (v : Context) : (s.setCtx v).free = s.free := rfl

@[simp] theorem State.setDesc_status (s : State) (v : Descriptor) : (s.setDesc v).status = s.status := rfl
@[simp] theorem State.setDesc_cfg (s : State) (v : Descriptor) : (s.setDesc v).cfg = s.cfg := rfl
@[simp] theorem State.setDesc_ctx (s : State) (v : Descriptor) : (s.setDesc v).ctx = s.ctx := rfl
@[simp] theorem State.setDesc_desc (s : State) (v : Descriptor) : (s.setDesc v).desc = v := rfl
@[simp] theorem State.setDesc_used (s : State) (v : Descriptor) : (s.setDesc v).used = s.used := rfl
@[simp] theorem State.setDesc_run (s : State) (v : Descriptor) : (s.setDesc v).run = s.run := rfl
@[simp] theorem State.setDesc_px (s : State) (v : Descriptor) : (s.setDesc v).px = s.px := rfl
@[simp] theorem State.setDesc_mem (s : State) (v : Descriptor) : (s.setDesc v).mem = s.mem := rfl
@[simp] theorem State.setDesc_platform (s : State) (v : Descriptor) : (s.setDesc v).platform = s.platform := rfl
@[simp] theorem State.setDesc_turns (s : State) (v : Descriptor) : (s.setDesc v).turns = s.turns := rfl
@[simp] theorem State.setDesc_hostData (s : State) (v : Descriptor) : (s.setDesc v).hostData = s.hostData := rfl
@[simp] theorem State.setDesc_exclusive (s : State) (v : Descriptor) : (s.setDesc v).exclusive = s.exclusive := rfl
@[simp] theorem State.setDesc_free (s : State) (v : Descriptor) : (s.setDesc v).free = s.free := rfl

@[simp] theorem State.setUsed_status (s : State) (v : Word) : (s.setUsed v).status = s.status := rfl
@[simp] theorem State.setUsed_cfg (s : State) (v : Word) : (s.setUsed v).cfg = s.cfg := rfl
@[simp] theorem State.setUsed_ctx (s : State) (v : Word) : (s.setUsed v).ctx = s.ctx := rfl
@[simp] theorem State.setUsed_desc (s : State) (v : Word) : (s.setUsed v).desc = s.desc := rfl
@[simp] theorem State.setUsed_used (s : State) (v : Word) : (s.setUsed v).used = v := rfl
@[simp] theorem State.setUsed_run (s : State) (v : Word) : (s.setUsed v).run = s.run := rfl
@[simp] theorem State.setUsed_px (s : State) (v : Word) : (s.setUsed v).px = s.px := rfl
@[simp] theorem State.setUsed_mem (s : State) (v : Word) : (s.setUsed v).mem = s.mem := rfl
@[simp] theorem State.setUsed_platform (s : State) (v : Word) : (s.setUsed v).platform = s.platform := rfl
@[simp] theorem State.setUsed_turns (s : State) (v : Word) : (s.setUsed v).turns = s.turns := rfl
@[simp] theorem State.setUsed_hostData (s : State) (v : Word) : (s.setUsed v).hostData = s.hostData := rfl
@[simp] theorem State.setUsed_exclusive (s : State) (v : Word) : (s.setUsed v).exclusive = s.exclusive := rfl
@[simp] theorem State.setUsed_free (s : State) (v : Word) : (s.setUsed v).free = s.free := rfl

@[simp] theorem State.setRun_status (s : State) (v : Run) : (s.setRun v).status = s.status := rfl
@[simp] theorem State.setRun_cfg (s : State) (v : Run) : (s.setRun v).cfg = s.cfg := rfl
@[simp] theorem State.setRun_ctx (s : State) (v : Run) : (s.setRun v).ctx = s.ctx := rfl
@[simp] theorem State.setRun_desc (s : State) (v : Run) : (s.setRun v).desc = s.desc := rfl
@[simp] theorem State.setRun_used (s : State) (v : Run) : (s.setRun v).used = s.used := rfl
@[simp] theorem State.setRun_run (s : State) (v : Run) : (s.setRun v).run = v := rfl
@[simp] theorem State.setRun_px (s : State) (v : Run) : (s.setRun v).px = s.px := rfl
@[simp] theorem State.setRun_mem (s : State) (v : Run) : (s.setRun v).mem = s.mem := rfl
@[simp] theorem State.setRun_platform (s : State) (v : Run) : (s.setRun v).platform = s.platform := rfl
@[simp] theorem State.setRun_turns (s : State) (v : Run) : (s.setRun v).turns = s.turns := rfl
@[simp] theorem State.setRun_hostData (s : State) (v : Run) : (s.setRun v).hostData = s.hostData := rfl
@[simp] theorem State.setRun_exclusive (s : State) (v : Run) : (s.setRun v).exclusive = s.exclusive := rfl
@[simp] theorem State.setRun_free (s : State) (v : Run) : (s.setRun v).free = s.free := rfl

@[simp] theorem State.setPx_status (s : State) (v : Pixel) : (s.setPx v).status = s.status := rfl
@[simp] theorem State.setPx_cfg (s : State) (v : Pixel) : (s.setPx v).cfg = s.cfg := rfl
@[simp] theorem State.setPx_ctx (s : State) (v : Pixel) : (s.setPx v).ctx = s.ctx := rfl
@[simp] theorem State.setPx_desc (s : State) (v : Pixel) : (s.setPx v).desc = s.desc := rfl
@[simp] theorem State.setPx_used (s : State) (v : Pixel) : (s.setPx v).used = s.used := rfl
@[simp] theorem State.setPx_run (s : State) (v : Pixel) : (s.setPx v).run = s.run := rfl
@[simp] theorem State.setPx_px (s : State) (v : Pixel) : (s.setPx v).px = v := rfl
@[simp] theorem State.setPx_mem (s : State) (v : Pixel) : (s.setPx v).mem = s.mem := rfl
@[simp] theorem State.setPx_platform (s : State) (v : Pixel) : (s.setPx v).platform = s.platform := rfl
@[simp] theorem State.setPx_turns (s : State) (v : Pixel) : (s.setPx v).turns = s.turns := rfl
@[simp] theorem State.setPx_hostData (s : State) (v : Pixel) : (s.setPx v).hostData = s.hostData := rfl
@[simp] theorem State.setPx_exclusive (s : State) (v : Pixel) : (s.setPx v).exclusive = s.exclusive := rfl
@[simp] theorem State.setPx_free (s : State) (v : Pixel) : (s.setPx v).free = s.free := rfl

@[simp] theorem State.setMem_status (s : State) (v : List Host.Cell) : (s.setMem v).status = s.status := rfl
@[simp] theorem State.setMem_cfg (s : State) (v : List Host.Cell) : (s.setMem v).cfg = s.cfg := rfl
@[simp] theorem State.setMem_ctx (s : State) (v : List Host.Cell) : (s.setMem v).ctx = s.ctx := rfl
@[simp] theorem State.setMem_desc (s : State) (v : List Host.Cell) : (s.setMem v).desc = s.desc := rfl
@[simp] theorem State.setMem_used (s : State) (v : List Host.Cell) : (s.setMem v).used = s.used := rfl
@[simp] theorem State.setMem_run (s : State) (v : List Host.Cell) : (s.setMem v).run = s.run := rfl
@[simp] theorem State.setMem_px (s : State) (v : List Host.Cell) : (s.setMem v).px = s.px := rfl
@[simp] theorem State.setMem_mem (s : State) (v : List Host.Cell) : (s.setMem v).mem = v := rfl
@[simp] theorem State.setMem_platform (s : State) (v : List Host.Cell) : (s.setMem v).platform = s.platform := rfl
@[simp] theorem State.setMem_turns (s : State) (v : List Host.Cell) : (s.setMem v).turns = s.turns := rfl
@[simp] theorem State.setMem_hostData (s : State) (v : List Host.Cell) : (s.setMem v).hostData = s.hostData := rfl
@[simp] theorem State.setMem_exclusive (s : State) (v : List Host.Cell) : (s.setMem v).exclusive = s.exclusive := rfl
@[simp] theorem State.setMem_free (s : State) (v : List Host.Cell) : (s.setMem v).free = s.free := rfl

@[simp] theorem State.setTurns_status (s : State) (v : List Turn) : (s.setTurns v).status = s.status := rfl
@[simp] theorem State.setTurns_cfg (s : State) (v : List Turn) : (s.setTurns v).cfg = s.cfg := rfl
@[simp] theorem State.setTurns_ctx (s : State) (v : List Turn) : (s.setTurns v).ctx = s.ctx := rfl
@[simp] theorem State.setTurns_desc (s : State) (v : List Turn) : (s.setTurns v).desc = s.desc := rfl
@[simp] theorem State.setTurns_used (s : State) (v : List Turn) : (s.setTurns v).used = s.used := rfl
@[simp] theorem State.setTurns_run (s : State) (v : List Turn) : (s.setTurns v).run = s.run := rfl
@[simp] theorem State.setTurns_px (s : State) (v : List Turn) : (s.setTurns v).px = s.px := rfl
@[simp] theorem State.setTurns_mem (s : State) (v : List Turn) : (s.setTurns v).mem = s.mem := rfl
@[simp] theorem State.setTurns_platform (s : State) (v : List Turn) : (s.setTurns v).platform = s.platform := rfl
@[simp] theorem State.setTurns_turns (s : State) (v : List Turn) : (s.setTurns v).turns = v := rfl
@[simp] theorem State.setTurns_hostData (s : State) (v : List Turn) : (s.setTurns v).hostData = s.hostData := rfl
@[simp] theorem State.setTurns_exclusive (s : State) (v : List Turn) : (s.setTurns v).exclusive = s.exclusive := rfl
@[simp] theorem State.setTurns_free (s : State) (v : List Turn) : (s.setTurns v).free = s.free := rfl

@[simp] theorem State.setHostData_status (s : State) (v : Word) : (s.setHostData v).status = s.status := rfl
@[simp] theorem State.setHostData_cfg (s : State) (v : Word) : (s.setHostData v).cfg = s.cfg := rfl
@[simp] theorem State.setHostData_ctx (s : State) (v : Word) : (s.setHostData v).ctx = s.ctx := rfl
@[simp] theorem State.setHostData_desc (s : State) (v : Word) : (s.setHostData v).desc = s.desc := rfl
@[simp] theorem State.setHostData_used (s : State) (v : Word) : (s.setHostData v).used = s.used := rfl
@[simp] theorem State.setHostData_run (s : State) (v : Word) : (s.setHostData v).run = s.run := rfl
@[simp] theorem State.setHostData_px (s : State) (v : Word) : (s.setHostData v).px = s.px := rfl
@[simp] theorem State.setHostData_mem (s : State) (v : Word) : (s.setHostData v).mem = s.mem := rfl
@[simp] theorem State.setHostData_platform (s : State) (v : Word) : (s.setHostData v).platform = s.platform := rfl
@[simp] theorem State.setHostData_turns (s : State) (v : Word) : (s.setHostData v).turns = s.turns := rfl
@[simp] theorem State.setHostData_hostData (s : State) (v : Word) : (s.setHostData v).hostData = v := rfl
@[simp] theorem State.setHostData_exclusive (s : State) (v : Word) : (s.setHostData v).exclusive = s.exclusive := rfl
@[simp] theorem State.setHostData_free (s : State) (v : Word) : (s.setHostData v).free = s.free := rfl

@[simp] theorem State.setExclusive_status (s : State) (v : List Descriptor) :
    (s.setExclusive v).status = s.status := rfl
@[simp] theorem State.setExclusive_cfg (s : State) (v : List Descriptor) :
    (s.setExclusive v).cfg = s.cfg := rfl
@[simp] theorem State.setExclusive_ctx (s : State) (v : List Descriptor) :
    (s.setExclusive v).ctx = s.ctx := rfl
@[simp] theorem State.setExclusive_desc (s : State) (v : List Descriptor) :
    (s.setExclusive v).desc = s.desc := rfl
@[simp] theorem State.setExclusive_used (s : State) (v : List Descriptor) :
    (s.setExclusive v).used = s.used := rfl
@[simp] theorem State.setExclusive_run (s : State) (v : List Descriptor) :
    (s.setExclusive v).run = s.run := rfl
@[simp] theorem State.setExclusive_px (s : State) (v : List Descriptor) :
    (s.setExclusive v).px = s.px := rfl
@[simp] theorem State.setExclusive_mem (s : State) (v : List Descriptor) :
    (s.setExclusive v).mem = s.mem := rfl
@[simp] theorem State.setExclusive_platform (s : State) (v : List Descriptor) :
    (s.setExclusive v).platform = s.platform := rfl
@[simp] theorem State.setExclusive_turns (s : State) (v : List Descriptor) :
    (s.setExclusive v).turns = s.turns := rfl
@[simp] theorem State.setExclusive_hostData (s : State) (v : List Descriptor) :
    (s.setExclusive v).hostData = s.hostData := rfl
@[simp] theorem State.setExclusive_exclusive (s : State) (v : List Descriptor) :
    (s.setExclusive v).exclusive = v := rfl
@[simp] theorem State.setExclusive_free (s : State) (v : List Descriptor) :
    (s.setExclusive v).free = s.free := rfl

@[simp] theorem State.setFree_status (s : State) (v : Nat) : (s.setFree v).status = s.status := rfl
@[simp] theorem State.setFree_cfg (s : State) (v : Nat) : (s.setFree v).cfg = s.cfg := rfl
@[simp] theorem State.setFree_ctx (s : State) (v : Nat) : (s.setFree v).ctx = s.ctx := rfl
@[simp] theorem State.setFree_desc (s : State) (v : Nat) : (s.setFree v).desc = s.desc := rfl
@[simp] theorem State.setFree_used (s : State) (v : Nat) : (s.setFree v).used = s.used := rfl
@[simp] theorem State.setFree_run (s : State) (v : Nat) : (s.setFree v).run = s.run := rfl
@[simp] theorem State.setFree_px (s : State) (v : Nat) : (s.setFree v).px = s.px := rfl
@[simp] theorem State.setFree_mem (s : State) (v : Nat) : (s.setFree v).mem = s.mem := rfl
@[simp] theorem State.setFree_platform (s : State) (v : Nat) : (s.setFree v).platform = s.platform := rfl
@[simp] theorem State.setFree_turns (s : State) (v : Nat) : (s.setFree v).turns = s.turns := rfl
@[simp] theorem State.setFree_hostData (s : State) (v : Nat) : (s.setFree v).hostData = s.hostData := rfl
@[simp] theorem State.setFree_exclusive (s : State) (v : Nat) : (s.setFree v).exclusive = s.exclusive := rfl
@[simp] theorem State.setFree_free (s : State) (v : Nat) : (s.setFree v).free = v := rfl

@[simp] theorem State.setStatus_self (s : State) : s.setStatus s.status = s := rfl
@[simp] theorem State.setStatus_twice (s : State) (v w : Status) : (s.setStatus v).setStatus w = s.setStatus w := rfl
@[simp] theorem State.setCfg_self (s : State) : s.setCfg s.cfg = s := rfl
@[simp] theorem State.setCfg_twice (s : State) (v w : Staging) : (s.setCfg v).setCfg w = s.setCfg w := rfl
@[simp] theorem State.setCtx_self (s : State) : s.setCtx s.ctx = s := rfl
@[simp] theorem State.setCtx_twice (s : State) (v w : Context) : (s.setCtx v).setCtx w = s.setCtx w := rfl
@[simp] theorem State.setDesc_self (s : State) : s.setDesc s.desc = s := rfl
@[simp] theorem State.setDesc_twice (s : State) (v w : Descriptor) : (s.setDesc v).setDesc w = s.setDesc w := rfl
@[simp] theorem State.setUsed_self (s : State) : s.setUsed s.used = s := rfl
@[simp] theorem State.setUsed_twice (s : State) (v w : Word) : (s.setUsed v).setUsed w = s.setUsed w := rfl
@[simp] theorem State.setRun_self (s : State) : s.setRun s.run = s := rfl
@[simp] theorem State.setRun_twice (s : State) (v w : Run) : (s.setRun v).setRun w = s.setRun w := rfl
@[simp] theorem State.setPx_self (s : State) : s.setPx s.px = s := rfl
@[simp] theorem State.setPx_twice (s : State) (v w : Pixel) : (s.setPx v).setPx w = s.setPx w := rfl
@[simp] theorem State.setMem_self (s : State) : s.setMem s.mem = s := rfl
@[simp] theorem State.setMem_twice (s : State) (v w : List Host.Cell) : (s.setMem v).setMem w = s.setMem w := rfl
@[simp] theorem State.setTurns_self (s : State) : s.setTurns s.turns = s := rfl
@[simp] theorem State.setTurns_twice (s : State) (v w : List Turn) : (s.setTurns v).setTurns w = s.setTurns w := rfl
@[simp] theorem State.setHostData_self (s : State) : s.setHostData s.hostData = s := rfl
@[simp] theorem State.setHostData_twice (s : State) (v w : Word) : (s.setHostData v).setHostData w = s.setHostData w := rfl
@[simp] theorem State.setExclusive_self (s : State) : s.setExclusive s.exclusive = s := rfl
@[simp] theorem State.setExclusive_twice (s : State) (v w : List Descriptor) :
    (s.setExclusive v).setExclusive w = s.setExclusive w := rfl
@[simp] theorem State.setFree_self (s : State) : s.setFree s.free = s := rfl
@[simp] theorem State.setFree_twice (s : State) (v w : Nat) : (s.setFree v).setFree w = s.setFree w := rfl

end Sys2Proof.Machine
end

