-- ==== Sys2Proof/Laws/Ops.lean ====
section
/-! SUPPORT. One lemma per shared operation that says everything it can do: taking a fault, the acceptance of a host
write, the engine's reads and writes. Later proofs cite these and do not unfold the operations. -/

namespace Sys2Proof.Machine

/-! ## Taking a fault -/

@[simp] theorem raise_status (k : FaultCause) (s : State) : (raise k s).status = statusFault k s.status := rfl
@[simp] theorem raise_cfg (k : FaultCause) (s : State) : (raise k s).cfg = s.cfg := rfl
@[simp] theorem raise_ctx (k : FaultCause) (s : State) : (raise k s).ctx = s.ctx := rfl
@[simp] theorem raise_desc (k : FaultCause) (s : State) : (raise k s).desc = s.desc := rfl
@[simp] theorem raise_used (k : FaultCause) (s : State) : (raise k s).used = s.used := rfl
@[simp] theorem raise_run (k : FaultCause) (s : State) : (raise k s).run = s.run := rfl
@[simp] theorem raise_px (k : FaultCause) (s : State) : (raise k s).px = s.px := rfl
@[simp] theorem raise_mem (k : FaultCause) (s : State) : (raise k s).mem = s.mem := rfl
@[simp] theorem raise_platform (k : FaultCause) (s : State) : (raise k s).platform = s.platform := rfl
@[simp] theorem raise_turns (k : FaultCause) (s : State) : (raise k s).turns = s.turns := rfl
@[simp] theorem raise_hostData (k : FaultCause) (s : State) : (raise k s).hostData = s.hostData := rfl
@[simp] theorem raise_exclusive (k : FaultCause) (s : State) : (raise k s).exclusive = s.exclusive := rfl
@[simp] theorem raise_free (k : FaultCause) (s : State) : (raise k s).free = s.free := rfl

@[simp] theorem statusFault_err (k : FaultCause) (t : Status) : (statusFault k t).err = true := by
  unfold statusFault
  cases h : t.err <;> simp [h]

@[simp] theorem statusFault_busy (k : FaultCause) (t : Status) : (statusFault k t).busy = false := rfl

@[simp] theorem statusFault_valid (k : FaultCause) (t : Status) : (statusFault k t).valid = t.valid := by
  unfold statusFault
  cases h : t.err <;> simp

@[simp] theorem statusFault_done (k : FaultCause) (t : Status) : (statusFault k t).done = t.done := by
  unfold statusFault
  cases h : t.err <;> simp

@[simp] theorem statusFault_createFail (k : FaultCause) (t : Status) :
    (statusFault k t).createFail = t.createFail := by
  unfold statusFault
  cases h : t.err <;> simp

/-- The first fault is recorded. -/
theorem statusFault_cause_first {k : FaultCause} {t : Status} (h : t.err = false) :
    (statusFault k t).cause = causeCode k := by
  simp [statusFault, h]

/-- A recorded fault keeps its code. -/
theorem statusFault_cause_kept {k : FaultCause} {t : Status} (h : t.err = true) :
    (statusFault k t).cause = t.cause := by
  simp [statusFault, h]

/-! ## Acceptance of a host write -/

/-- In the error state the write is ignored. -/
theorem whenIdle_err {effect : State → State} {s : State} (h : s.status.err = true) : whenIdle effect s = s := by
  simp [whenIdle, h]

/-- While a run is busy the write is dropped with `BusyWrite`. -/
theorem whenIdle_busy {effect : State → State} {s : State} (he : s.status.err = false) (hb : s.status.busy = true) :
    whenIdle effect s = raise .busyWrite s := by
  simp [whenIdle, he, hb]

/-- On an idle block the write has its effect. -/
theorem whenIdle_idle {effect : State → State} {s : State} (he : s.status.err = false) (hb : s.status.busy = false) :
    whenIdle effect s = effect s := by
  simp [whenIdle, he, hb]

/-- Everything the acceptance can do. -/
theorem whenIdle_cases (effect : State → State) (s : State) :
    (s.status.err = true ∧ whenIdle effect s = s) ∨
    (s.status.err = false ∧ s.status.busy = true ∧ whenIdle effect s = raise .busyWrite s) ∨
    (s.status.err = false ∧ s.status.busy = false ∧ whenIdle effect s = effect s) := by
  cases he : s.status.err with
  | true => exact .inl ⟨rfl, whenIdle_err he⟩
  | false =>
    cases hb : s.status.busy with
    | true => exact .inr (.inl ⟨rfl, rfl, whenIdle_busy he hb⟩)
    | false => exact .inr (.inr ⟨rfl, rfl, whenIdle_idle he hb⟩)

/-! ## Reading -/

/-- A read byte changes at most the count of free values. -/
theorem fetchByte_state (a : Nat) (s : State) : ∃ f, (fetchByte a s).2 = s.setFree f := by
  unfold fetchByte
  split
  · exact ⟨s.free + 1, rfl⟩
  · exact ⟨s.free, rfl⟩

/-- A byte the run does not write is read from memory. -/
theorem fetchByte_clean {a : Nat} {s : State} (h : runWritesByte s.run.desc a = false) :
    fetchByte a s = (Memory.read s.mem a, s) := by
  simp [fetchByte, h]

/-- Read bytes change at most the count of free values. -/
theorem fetchBytes_state (n a : Nat) (s : State) : ∃ f, (fetchBytes n a s).2 = s.setFree f := by
  induction n generalizing a s with
  | zero => exact ⟨s.free, rfl⟩
  | succ n ih =>
    obtain ⟨f, hf⟩ := fetchByte_state a s
    obtain ⟨g, hg⟩ := ih (a + 1) (fetchByte a s).2
    refine ⟨g, ?_⟩
    show (fetchBytes n (a + 1) (fetchByte a s).2).2 = s.setFree g
    rw [hg, hf]
    rfl

/-- Bytes the run does not write are read from memory. -/
theorem fetchBytes_clean {n a : Nat} {s : State} (h : ∀ i, i < n → runWritesByte s.run.desc (a + i) = false) :
    fetchBytes n a s = (Memory.readBytes s.mem a n, s) := by
  induction n generalizing a with
  | zero => rfl
  | succ n ih =>
    have h0 := fetchByte_clean (s := s) (h 0 (by omega))
    have hrest : ∀ i, i < n → runWritesByte s.run.desc (a + 1 + i) = false := fun i hi => by
      have := h (i + 1) (by omega)
      rwa [show a + (i + 1) = a + 1 + i by omega] at this
    simp only [Nat.add_zero] at h0
    simp [fetchBytes, h0, ih hrest, Memory.readBytes]

/-- Everything a read can do: the access faults, or `use` goes on with a value and only the count of free values may
have changed. -/
theorem readThen_cases (a n : Nat) (use : Nat → State → State) (s : State) :
    (∃ k, readThen a n use s = raise k s) ∨ (∃ v f, readThen a n use s = use v (s.setFree f)) := by
  unfold readThen engineRead
  split
  · rename_i v t heq
    split at heq
    · cases heq
    · split at heq
      · injection heq with heq
        obtain ⟨f, hf⟩ := fetchBytes_state n a s
        rw [heq] at hf
        exact .inr ⟨v, f, by rw [← hf]⟩
      · cases heq
  · rename_i k _
    exact .inl ⟨k, rfl⟩

/-- A read that is aligned, admitted and of bytes the run does not write gives memory's bytes. -/
theorem readThen_clean {a n : Nat} {use : Nat → State → State} {s : State} (hal : a % n = 0)
    (had : admitted s.platform .read a n = true) (h : ∀ i, i < n → runWritesByte s.run.desc (a + i) = false) :
    readThen a n use s = use (Memory.readBytes s.mem a n) s := by
  simp [readThen, engineRead, hal, had, fetchBytes_clean h]

/-- A misaligned read faults, admitted or not. -/
theorem readThen_misaligned {a n : Nat} {use : Nat → State → State} {s : State} (hal : a % n ≠ 0) :
    readThen a n use s = raise .misaligned s := by
  simp [readThen, engineRead, hal]

/-- An aligned read that is not admitted faults. -/
theorem readThen_absent {a n : Nat} {use : Nat → State → State} {s : State} (hal : a % n = 0)
    (had : admitted s.platform .read a n = false) : readThen a n use s = raise .accessFault s := by
  simp [readThen, engineRead, hal, had]

/-! ## Writing -/

/-- An admitted access stays inside the address space. -/
theorem admitted_inSpace {p : Platform} {k : AccessKind} {a n : Nat} (h : admitted p k a n = true) {i : Nat}
    (hi : i < n) : a + i < 2 ^ 32 := by
  induction n generalizing a i with
  | zero => omega
  | succ n ih =>
    simp only [admitted, Bool.and_eq_true] at h
    cases i with
    | zero =>
      have h0 := h.1
      simp only [byteAdmitted, Bool.and_eq_true, decide_eq_true_eq] at h0
      simpa using h0.1.1
    | succ i =>
      have := ih h.2 (i := i) (by omega)
      omega

/-- What the engine's writes may change: memory and the count of free values, memory staying canonical and every byte
outside `inside` staying as it is. -/
structure WroteOnly (inside : Nat → Prop) (s t : State) : Prop where
  frame : t = (s.setMem t.mem).setFree t.free
  wf : Memory.wf s.mem = true → Memory.wf t.mem = true
  outside : Memory.wf s.mem = true → ∀ a, ¬inside a → Memory.read t.mem a = Memory.read s.mem a

/-- Writing nothing. -/
theorem WroteOnly.refl (inside : Nat → Prop) (s : State) : WroteOnly inside s s :=
  ⟨rfl, fun h => h, fun _ _ _ => rfl⟩

/-- Writing twice. -/
theorem WroteOnly.trans {inside : Nat → Prop} {s t u : State} (h₁ : WroteOnly inside s t)
    (h₂ : WroteOnly inside t u) : WroteOnly inside s u where
  frame := by rw [h₂.frame, h₁.frame]; rfl
  wf h := h₂.wf (h₁.wf h)
  outside h a ha := by rw [h₂.outside (h₁.wf h) a ha, h₁.outside h a ha]

/-- Writing within less is writing within more. -/
theorem WroteOnly.mono {inside inside' : Nat → Prop} {s t : State} (h : WroteOnly inside s t)
    (hle : ∀ a, inside a → inside' a) : WroteOnly inside' s t :=
  ⟨h.frame, h.wf, fun hw a ha => h.outside hw a fun hin => ha (hle a hin)⟩

/-- One written byte. -/
theorem putByte_wrote {a : Nat} {b : Byte} {s : State} (ha : a < 2 ^ 32) :
    WroteOnly (fun x => x = a) s (putByte a b s) := by
  unfold putByte
  split
  · exact ⟨rfl, fun h => Memory.write_wf h ha, fun h x hx => Memory.read_write_other h hx⟩
  · exact ⟨rfl, fun h => Memory.write_wf h ha, fun h x hx => Memory.read_write_other h hx⟩

/-- One written word. -/
theorem putWord_wrote {a : Nat} {v : Word} {s : State} (ha : a + 3 < 2 ^ 32) :
    WroteOnly (fun x => a ≤ x ∧ x < a + 4) s (putWord a v s) := by
  unfold putWord
  have h0 := putByte_wrote (b := wordByte v 0) (s := s) (show a < 2 ^ 32 by omega)
  have h1 := putByte_wrote (b := wordByte v 1) (s := putByte a (wordByte v 0) s) (show a + 1 < 2 ^ 32 by omega)
  have h2 := putByte_wrote (b := wordByte v 2) (s := putByte (a + 1) (wordByte v 1) (putByte a (wordByte v 0) s))
    (show a + 2 < 2 ^ 32 by omega)
  have h3 := putByte_wrote (b := wordByte v 3)
    (s := putByte (a + 2) (wordByte v 2) (putByte (a + 1) (wordByte v 1) (putByte a (wordByte v 0) s)))
    (show a + 3 < 2 ^ 32 by omega)
  exact (((h0.mono fun x hx => by omega).trans (h1.mono fun x hx => by omega)).trans
    (h2.mono fun x hx => by omega)).trans (h3.mono fun x hx => by omega)

/-- The engine's writes leave the run's snapshot alone, so what is contested does not change under them. -/
theorem putByte_run (a : Nat) (b : Byte) (s : State) : (putByte a b s).run = s.run := by
  unfold putByte
  split <;> rfl

/-- A byte outside one of the two output arrays is written as given. -/
theorem putByte_clean {a : Nat} {b : Byte} {s : State}
    (h : (inPointEntries s.run.desc a && inColorEntries s.run.desc a) = false) :
    putByte a b s = s.setMem (Memory.write s.mem a b) := by
  simp [putByte, h]

/-- A word outside one of the two output arrays is written as given, little-endian. -/
theorem putWord_clean {a : Nat} {v : Word} {s : State}
    (h : ∀ i, i < 4 → (inPointEntries s.run.desc (a + i) && inColorEntries s.run.desc (a + i)) = false) :
    putWord a v s = s.setMem (Memory.writeBytes s.mem a v 4) := by
  have h0 := h 0 (by omega)
  have h1 := h 1 (by omega)
  have h2 := h 2 (by omega)
  have h3 := h 3 (by omega)
  unfold putWord
  rw [putByte_clean (a := a) (by simpa using h0)]
  rw [putByte_clean (a := a + 1) (by simpa using h1)]
  rw [putByte_clean (a := a + 2) (by simpa using h2)]
  rw [putByte_clean (a := a + 3) (by simpa using h3)]
  rfl

/-- Everything a word write can do. -/
theorem engineWrite_cases (a : Nat) (v : Word) (s : State) :
    (a % 4 ≠ 0 ∧ engineWrite a v s = .error .misaligned) ∨
    (a % 4 = 0 ∧ admitted s.platform .write a 4 = false ∧ engineWrite a v s = .error .accessFault) ∨
    (a % 4 = 0 ∧ admitted s.platform .write a 4 = true ∧ engineWrite a v s = .ok (putWord a v s)) := by
  unfold engineWrite
  by_cases hal : a % 4 = 0
  · cases had : admitted s.platform .write a 4 <;> simp [hal]
  · simp [hal]

/-- A byte of one of the words stored. -/
def storedByte (ws : List (Nat × Word)) (x : Nat) : Prop := ∃ w ∈ ws, w.1 ≤ x ∧ x < w.1 + 4

/-- Everything a sequence of word writes can do: it makes writes within the words' bytes, and then goes through or
raises a fault. -/
theorem storeWords_cases (ws : List (Nat × Word)) (s : State) :
    ∃ t, WroteOnly (storedByte ws) s t ∧ (storeWords ws s = t ∨ ∃ k, storeWords ws s = raise k t) := by
  induction ws generalizing s with
  | nil => exact ⟨s, WroteOnly.refl _ s, .inl rfl⟩
  | cons w rest ih =>
    obtain ⟨a, v⟩ := w
    rcases engineWrite_cases a v s with ⟨_, he⟩ | ⟨_, _, he⟩ | ⟨_, had, he⟩
    · exact ⟨s, WroteOnly.refl _ s, .inr ⟨.misaligned, by simp [storeWords, he]⟩⟩
    · exact ⟨s, WroteOnly.refl _ s, .inr ⟨.accessFault, by simp [storeWords, he]⟩⟩
    · obtain ⟨t, ht, hres⟩ := ih (putWord a v s)
      have hput := putWord_wrote (v := v) (s := s) (admitted_inSpace had (i := 3) (by omega))
      refine ⟨t, (hput.mono fun x hx => ⟨(a, v), by simp, hx⟩).trans
        (ht.mono fun x ⟨w, hw, hx⟩ => ⟨w, by simp [hw], hx⟩), ?_⟩
      simpa [storeWords, he] using hres

/-- A word write that is aligned, admitted and in one array only goes through, and the rest goes on. -/
theorem storeWords_cons_clean {a : Nat} {v : Word} {rest : List (Nat × Word)} {s : State} (hal : a % 4 = 0)
    (had : admitted s.platform .write a 4 = true)
    (h : ∀ i, i < 4 → (inPointEntries s.run.desc (a + i) && inColorEntries s.run.desc (a + i)) = false) :
    storeWords ((a, v) :: rest) s = storeWords rest (s.setMem (Memory.writeBytes s.mem a v 4)) := by
  simp [storeWords, engineWrite, hal, had, putWord_clean h]

end Sys2Proof.Machine
end

