-- ==== Sys2Proof/Laws/PerInstr.lean ====
section
/-! SUPPORT. Per-instruction statements: an instruction has a word exactly when it is well-formed, and its word decodes
to it (30_encoding.md rules R100 to R102). -/

namespace Sys2Proof.Laws.RoundTrip

/-- The instruction has a word when, and only when, it is well-formed, and that word decodes to it. -/
def Statement (i : Instr) : Prop :=
  (i.wellFormed = true ↔ (encode i).isSome = true) ∧ ∀ w, encode i = some w → decode w = .ok i

/-- A command: its word is `w`, and `w` decodes to it. -/
theorem of_command {i : Instr} {w : Word} (hi : i.wellFormed = true) (he : encode i = some w) (hd : decode w = .ok i) :
    Statement i :=
  ⟨by simp [hi, he], fun v hv => by rw [he] at hv; exact Option.some.inj hv ▸ hd⟩

/-- A stage operation: it has no word. -/
theorem of_stage {i : Instr} (hi : i.wellFormed = false) (he : encode i = none) : Statement i :=
  ⟨by simp [hi, he], fun v hv => by simp [he] at hv⟩

theorem nop : Statement .nop := of_command (w := 0x00000000#32) rfl (by decide) (by rfl)
theorem create : Statement .create := of_command (w := 0x00000001#32) rfl (by decide) (by rfl)
theorem unproject : Statement .unproject := of_command (w := 0x00000002#32) rfl (by decide) (by rfl)
theorem destroy : Statement .destroy := of_command (w := 0x00000003#32) rfl (by decide) (by rfl)
theorem depthFetch : Statement .depthFetch := of_stage rfl rfl
theorem linearise : Statement .linearise := of_stage rfl rfl
theorem backproject : Statement .backproject := of_stage rfl rfl
theorem colorDefault : Statement .colorDefault := of_stage rfl rfl
theorem lumaFetch : Statement .lumaFetch := of_stage rfl rfl
theorem chromaFetch : Statement .chromaFetch := of_stage rfl rfl
theorem yuv2rgb : Statement .yuv2rgb := of_stage rfl rfl
theorem packRgba : Statement .packRgba := of_stage rfl rfl
theorem emit : Statement .emit := of_stage rfl rfl

end Sys2Proof.Laws.RoundTrip
end

