-- ==== Sys2Proof/Laws/Stages.lean ====
section
/-! SUPPORT. What a stage operation, a sequence of them and a pixel step can do, said once. -/

namespace Sys2Proof.Machine

/-- The sixteen bytes of the output entry that a run's counters name (rules R74 and R75). -/
def entryByte (u : Run) (x : Nat) : Prop :=
  (pointAddr u.desc u.n.toNat ≤ x ∧ x < pointAddr u.desc u.n.toNat + 12) ∨
  (colorEntryAddr u.desc u.n.toNat ≤ x ∧ x < colorEntryAddr u.desc u.n.toNat + 4)

/-- What stage operations may change: working values, the entry's bytes, the count of free values, and the flags by a
fault. -/
structure StageOnly (s t : State) : Prop where
  frame : t = (((s.setMem t.mem).setFree t.free).setPx t.px).setStatus t.status
  status : t.status = s.status ∨ ∃ k, t.status = statusFault k s.status
  wf : Memory.wf s.mem = true → Memory.wf t.mem = true
  outside : Memory.wf s.mem = true → ∀ a, ¬entryByte s.run a → Memory.read t.mem a = Memory.read s.mem a

theorem StageOnly.run {s t : State} (h : StageOnly s t) : t.run = s.run := by rw [h.frame]; rfl
theorem StageOnly.cfg {s t : State} (h : StageOnly s t) : t.cfg = s.cfg := by rw [h.frame]; rfl
theorem StageOnly.ctx {s t : State} (h : StageOnly s t) : t.ctx = s.ctx := by rw [h.frame]; rfl
theorem StageOnly.desc {s t : State} (h : StageOnly s t) : t.desc = s.desc := by rw [h.frame]; rfl
theorem StageOnly.used {s t : State} (h : StageOnly s t) : t.used = s.used := by rw [h.frame]; rfl
theorem StageOnly.platform {s t : State} (h : StageOnly s t) : t.platform = s.platform := by rw [h.frame]; rfl
theorem StageOnly.turns {s t : State} (h : StageOnly s t) : t.turns = s.turns := by rw [h.frame]; rfl
theorem StageOnly.hostData {s t : State} (h : StageOnly s t) : t.hostData = s.hostData := by rw [h.frame]; rfl
theorem StageOnly.exclusive {s t : State} (h : StageOnly s t) : t.exclusive = s.exclusive := by rw [h.frame]; rfl

/-- Two faults in a row leave what the first left, but for the run being stopped again. -/
theorem statusFault_twice (j k : FaultCause) (t : Status) : statusFault j (statusFault k t) = statusFault k t := by
  unfold statusFault
  cases h : t.err <;> simp [h]

/-- Changing nothing. -/
theorem StageOnly.refl (s : State) : StageOnly s s :=
  ⟨rfl, .inl rfl, fun h => h, fun _ _ _ => rfl⟩

/-- One stage after another. -/
theorem StageOnly.trans {s t u : State} (h₁ : StageOnly s t) (h₂ : StageOnly t u) : StageOnly s u where
  frame := by rw [h₂.frame, h₁.frame]; rfl
  status := by
    rcases h₂.status with h | ⟨j, h⟩
    · rcases h₁.status with h' | ⟨k, h'⟩
      · exact .inl (by rw [h, h'])
      · exact .inr ⟨k, by rw [h, h']⟩
    · rcases h₁.status with h' | ⟨k, h'⟩
      · exact .inr ⟨j, by rw [h, h']⟩
      · exact .inr ⟨k, by rw [h, h', statusFault_twice]⟩
  wf h := h₂.wf (h₁.wf h)
  outside h a ha := by
    rw [h₂.outside (h₁.wf h) a (by rw [h₁.run]; exact ha), h₁.outside h a ha]

/-- A change of working values only. -/
theorem StageOnly.setPx (s : State) (v : Pixel) : StageOnly s (s.setPx v) :=
  ⟨rfl, .inl rfl, fun h => h, fun _ _ _ => rfl⟩

/-- A fault, after some free values were drawn. -/
theorem StageOnly.raise (k : FaultCause) (s : State) : StageOnly s (raise k s) :=
  ⟨rfl, .inr ⟨k, rfl⟩, fun h => h, fun _ _ _ => rfl⟩

/-- Free values drawn. -/
theorem StageOnly.setFree (s : State) (f : Nat) : StageOnly s (s.setFree f) :=
  ⟨rfl, .inl rfl, fun h => h, fun _ _ _ => rfl⟩

/-- A read followed by a stage-like use is stage-like. -/
theorem StageOnly.readThen {a n : Nat} {use : Nat → State → State} {s : State}
    (h : ∀ v t, StageOnly t (use v t)) : StageOnly s (readThen a n use s) := by
  rcases readThen_cases a n use s with ⟨k, hk⟩ | ⟨v, f, hv⟩
  · rw [hk]
    exact StageOnly.raise k s
  · rw [hv]
    exact (StageOnly.setFree s f).trans (h v _)

/-- Writes within the entry are stage-like. -/
theorem StageOnly.ofWrote {inside : Nat → Prop} {s t : State} (h : WroteOnly inside s t)
    (hin : ∀ a, inside a → entryByte s.run a) : StageOnly s t :=
  ⟨by rw [h.frame]; rfl, .inl (by rw [h.frame]; rfl), h.wf,
    fun hw a ha => h.outside hw a fun hi => ha (hin a hi)⟩

/-- The words of an entry lie in the entry's bytes. -/
theorem storedByte_entryWrites {s : State} {x : Nat} (h : storedByte (entryWrites s) x) : entryByte s.run x := by
  obtain ⟨w, hw, hx⟩ := h
  simp only [entryWrites, List.mem_cons, List.not_mem_nil, or_false] at hw
  unfold entryByte
  rcases hw with rfl | rfl | rfl | rfl <;> simp only at hx <;> omega

/-- Some first writes of an entry are stage-like. -/
theorem StageOnly.storeWords {ws : List (Nat × Word)} {s : State} (h : ∀ w ∈ ws, w ∈ entryWrites s) :
    StageOnly s (storeWords ws s) := by
  obtain ⟨t, ht, hres⟩ := storeWords_cases ws s
  have hst : StageOnly s t := StageOnly.ofWrote ht fun a ⟨w, hw, ha⟩ =>
    storedByte_entryWrites ⟨w, h w hw, ha⟩
  rcases hres with hres | ⟨k, hres⟩
  · rw [hres]
    exact hst
  · rw [hres]
    exact hst.trans (StageOnly.raise k t)

/-- Every stage operation answers a next state and is stage-like. -/
theorem exec_stage {i : Instr} (hi : i.isCommand = false) (s : State) :
    ∃ t, exec i s = .next t ∧ StageOnly s t := by
  cases i with
  | nop => cases hi
  | create => cases hi
  | unproject => cases hi
  | destroy => cases hi
  | depthFetch => exact ⟨_, rfl, StageOnly.readThen fun v t => StageOnly.setPx t _⟩
  | linearise => exact ⟨_, rfl, StageOnly.setPx s _⟩
  | backproject => exact ⟨_, rfl, StageOnly.setPx s _⟩
  | colorDefault => exact ⟨_, rfl, StageOnly.setPx s _⟩
  | lumaFetch => exact ⟨_, rfl, StageOnly.readThen fun v t => StageOnly.setPx t _⟩
  | chromaFetch =>
    exact ⟨_, rfl, StageOnly.readThen fun u t => StageOnly.readThen fun v q => StageOnly.setPx q _⟩
  | yuv2rgb => exact ⟨_, rfl, StageOnly.setPx s _⟩
  | packRgba => exact ⟨_, rfl, StageOnly.setPx s _⟩
  | emit => exact ⟨_, rfl, StageOnly.storeWords fun w hw => hw⟩

/-- Stage operations one after another are stage-like. -/
theorem runStages_stageOnly {stages : List Instr} (h : ∀ i ∈ stages, i.isCommand = false) (s : State) :
    ∃ t, runStages stages s = .next t ∧ StageOnly s t := by
  induction stages generalizing s with
  | nil => exact ⟨s, rfl, StageOnly.refl s⟩
  | cons i rest ih =>
    obtain ⟨t, ht, hst⟩ := exec_stage (h i (by simp)) s
    cases hb : t.status.busy with
    | false => exact ⟨t, by simp [runStages, ht, hb], hst⟩
    | true =>
      obtain ⟨u, hu, htu⟩ := ih (fun j hj => h j (by simp [hj])) t
      exact ⟨u, by simp [runStages, ht, hb, hu], hst.trans htu⟩

/-- The stages of a pixel are stage operations, in either order. -/
theorem pixelStages_isStage (hasColor : Bool) : ∀ i ∈ pixelStages hasColor, i.isCommand = false := by
  cases hasColor <;> decide

theorem tableStages_isStage (hasColor : Bool) : ∀ i ∈ tableStages hasColor, i.isCommand = false := by
  cases hasColor <;> decide

/-- Everything a pixel step can do: its stages go through and the counters advance, or a fault stops it and they do
not; either way the working values are gone. -/
theorem pixelStep_cases {s : State} (hb : s.status.busy = true) :
    ∃ t, StageOnly s t ∧
      ((t.status = s.status ∧ pixelStep s = .next ((t.setRun (advanceRun s.run)).setPx Pixel.clear)) ∨
       (∃ k, t.status = statusFault k s.status ∧ pixelStep s = .next (t.setPx Pixel.clear))) := by
  obtain ⟨t, ht, hst⟩ := runStages_stageOnly (pixelStages_isStage s.run.desc.hasColor) s
  refine ⟨t, hst, ?_⟩
  rcases hst.status with h | ⟨k, h⟩
  · refine .inl ⟨h, ?_⟩
    simp [pixelStep, pixelStepOver, ht, finishPixel, h, hb, hst.run]
  · refine .inr ⟨k, h, ?_⟩
    simp [pixelStep, pixelStepOver, ht, finishPixel, h]

/-- A pixel cut off by a reset is stage-like. -/
theorem partialPixel_stageOnly (written : Nat) (s : State) : StageOnly s (partialPixel written s) := by
  unfold partialPixel
  split
  · have hstages : ∀ i ∈ (pixelStages s.run.desc.hasColor).dropLast, i.isCommand = false :=
      fun i hi => pixelStages_isStage _ i (List.dropLast_subset _ hi)
    obtain ⟨t, ht, hst⟩ := runStages_stageOnly hstages s
    rw [ht]
    split
    · rename_i heq
      injection heq with heq
      subst heq
      split
      · exact hst.trans (StageOnly.storeWords fun w hw => List.mem_of_mem_take hw)
      · exact hst
    · exact StageOnly.refl s
    · exact StageOnly.refl s
  · exact StageOnly.refl s

end Sys2Proof.Machine
end

