-- ==== Sys2Proof/Tests/Slice0.lean ====
section
/-! SUPPORT. The model's own tests: words and vectors of 95_test_vectors.md, each about one step or one operation, and
for every statement of Obligations.lean with hypotheses a witness that meets them together, at the boundary values of
its clauses. -/

namespace Sys2Proof.Tests

open Sys2Proof.Machine Sys2Proof.Safety

/-! ## Helpers -/

/-- A value of the next state an outcome gives. -/
def got {α : Type} (f : State → α) : Host.Outcome State Fault Refusal → Option α
  | .next t => some (f t)
  | .fault _ => none
  | .refused _ => none

theorem got_elim {α : Type} {f : State → α} {o : Host.Outcome State Fault Refusal} {v : α} (h : got f o = some v) :
    ∃ t, o = .next t ∧ f t = v := by
  cases o with
  | next t => exact ⟨t, rfl, Option.some.inj h⟩
  | fault r => simp [got] at h
  | refused r => simp [got] at h

/-- What the host reads of a register after an outcome. -/
def reads (r : Reg) (o : Host.Outcome State Fault Refusal) : Option Word := got (fun t => (readReg r t).1) o

/-- The four bytes at an address after an outcome. -/
def bytesAt (a : Nat) (o : Host.Outcome State Fault Refusal) : Option (List Byte) :=
  got (fun t => [Memory.read t.mem a, Memory.read t.mem (a + 1), Memory.read t.mem (a + 2), Memory.read t.mem (a + 3)]) o

/-- Memory from runs of bytes. -/
def filled (a : Nat) (bytes : List Byte) (m : List Host.Cell) : List Host.Cell :=
  match bytes with
  | [] => m
  | b :: rest => filled (a + 1) rest (Memory.write m a b)

/-- Context A of 95_test_vectors.md section 2.4. -/
def contextA : Context := ⟨0x3FC00000#32, 0x3F800000#32, 0x40000000#32, 0x40000000#32, 0x3A83126F#32, 0#32, 0#32⟩

/-- Staging values of programs P1 and V-C1. -/
def stagingA : Staging :=
  ⟨0x3FC00000#32, 0x3F800000#32, 0x40000000#32, 0x40000000#32, 0x3A83126F#32, 0x3E4CCCCD#32, 0x3DCCCCCD#32⟩

/-- A 2 by 2 frame with a colour plane and room for three entries. -/
def frame : Descriptor := ⟨2#32, 2#32, 4#32, 0x1000#32, true, 0x2000#32, 2#32, 0x3000#32, 0x4000#32, 3#32⟩

/-- Its bytes: samples 16384, 65472, 64, 0; luma 81, 100, 200, 60; one chroma pair 100, 160. -/
def frameMemory : List Host.Cell :=
  filled 0x1000 [0x00#8, 0x40#8, 0xC0#8, 0xFF#8, 0x40#8] (filled 0x2000 [81#8, 100#8, 200#8, 60#8, 100#8, 160#8] [])

/-- An idle block with no context, on the platform of 95_test_vectors.md section 3. -/
def idle : State :=
  { State.reset with
    platform := ⟨0x1FFFFFF#25, [⟨0, 0x8000, true, true⟩]⟩
    cfg := stagingA
    desc := frame
    mem := frameMemory }

/-- The same with a context. -/
def holding : State := { idle with ctx := contextA, status := { idle.status with valid := true } }

/-- A run of the frame at its second pixel. -/
def running : State :=
  { holding with
    status := { holding.status with busy := true }
    run := ⟨frame, 0#32, 1#32, 1#32⟩
    exclusive := [frame] }

/-- The error state after an access fault. -/
def failed : State := { holding with status := { holding.status with err := true, cause := 4#4 } }

/-- `running` at another place of the scan. -/
def runningAt (r c n : Word) : State := { running with run := ⟨frame, r, c, n⟩ }

/-- `running` with another snapshot, at the first pixel. -/
def runningOn (d : Descriptor) : State := { running with desc := d, run := ⟨d, 0#32, 0#32, 0#32⟩ }

/-- `running` with working values. -/
def withPx (v : Pixel) : State := { running with px := v }

/-! ## Decoding: words written out from rules R100 to R103 (RSV zero, CMD in bits 1:0) -/

theorem test_decode_nop : decode 0b00000000000000000000000000000000#32 = .ok .nop := by rfl
theorem test_decode_create : decode 0b00000000000000000000000000000001#32 = .ok .create := by rfl
theorem test_decode_unproject : decode 0b00000000000000000000000000000010#32 = .ok .unproject := by rfl
theorem test_decode_destroy : decode 0b00000000000000000000000000000011#32 = .ok .destroy := by rfl
/-- Vector V-C10: CREATE's low bits with a reserved bit set. -/
theorem test_decode_reserved : decode 0b00000000000000000000000000000101#32 = .error .reservedBitsSet := by rfl
theorem test_decode_top_bit : decode 0b10000000000000000000000000000010#32 = .error .reservedBitsSet := by rfl
theorem test_table_word : decodeTableWord 32 2 = some .unproject := by decide
theorem test_table_word_empty : decodeTableWord 0 2 = none ∧ decodeTableWord 40 2 = none := by decide
/-- A stage operation is not a term the host can give as a word: the check refuses it and it has no word. -/
theorem test_ill_formed_refused : Instr.wellFormed .emit = false ∧ encode .emit = none := by decide
theorem test_well_formed_accepted : Instr.wellFormed .create = true ∧ encode .create = some 1#32 := by decide

/-! ## Commands (vectors V-C1 to V-C16) -/

/-- V-C1. -/
theorem test_create_maxDepth : reads .ctxMaxDepth (exec .create idle) = some 0x4282BE77#32 := by decide +kernel
/-- V-C5. -/
theorem test_create_taken : reads .status (exec .create holding) = some 0x09#32 ∧
    reads .ctxFx (exec .create { holding with cfg := { stagingA with fx := 0x41100000#32 } }) = some 0x40000000#32 := by
  decide +kernel
/-- V-C6, with `CREATE_FAIL` set. -/
theorem test_destroy : reads .status (exec .destroy { holding with status := { holding.status with createFail := true } }) =
    some 0x08#32 := by decide
/-- V-C8. -/
theorem test_destroy_empty : reads .status (exec .destroy idle) = some 0x00#32 := by decide
/-- V-C9. -/
theorem test_nop : got id (exec .nop { holding with status := { holding.status with done := true } }) =
    some { holding with status := { holding.status with done := true } } := by decide
/-- V-C11. -/
theorem test_unproject_noContext : reads .status (exec .unproject idle) = some 0x310#32 := by decide
theorem test_unproject_launch : reads .status (exec .unproject holding) = some 0x03#32 ∧
    got (fun t => t.run) (exec .unproject holding) = some ⟨frame, 0#32, 0#32, 0#32⟩ := by decide
/-- V-C10. -/
theorem test_badCmd : reads .status (writeReg .ctrl 5#32 holding) = some 0x111#32 := by decide
/-- V-C12. -/
theorem test_busyWrite : reads .status (writeReg .frmWidth 7#32 running) = some 0x211#32 ∧
    reads .frmWidth (writeReg .frmWidth 7#32 running) = some 2#32 := by decide
/-- V-C13. -/
theorem test_errorIgnores : reads .status (writeReg .ctrl 1#32
    { idle with status := { idle.status with err := true, cause := 3#4 } }) = some 0x310#32 := by decide
/-- V-C16. -/
theorem test_flags_readBack : reads .frmFlags (writeReg .frmFlags 0xFFFFFFFF#32 idle) = some 1#32 := by decide
/-- A command reaches the block as the host's write to `CTRL` (rule R114 and V-C11). -/
theorem test_step_command : reads .status (step (idle.withFetchWord 32 2)) = some 0x310#32 := by decide

/-! ## Depth stages -/

/-- The sample at `0x1002` is `C0 FF`, 65472 (program P1's bytes). -/
theorem test_depthFetch : got (fun t => t.px.s) (exec .depthFetch running) = some 65472#16 := by decide
/-- V-F1. -/
theorem test_depthFetch_misaligned : reads .status (exec .depthFetch (runningOn { frame with depthAddr := 0x1001#32 })) =
    some 0x511#32 := by decide
/-- V-B3. -/
theorem test_linearise : got (fun t => t.px.d) (exec .linearise (withPx { Pixel.clear with s := 65472#16 })) =
    some 0x4282F1AA#32 := by decide +kernel
/-- V-B1, and V-B3 with its signed zero. -/
theorem test_backproject : got (fun t => [t.px.x, t.px.y, t.px.z]) (exec .backproject
      { withPx { Pixel.clear with d := 0x4183126F#32 } with run := ⟨frame, 0#32, 3#32, 0#32⟩ }) =
    some [0x41449BA6#32, 0x4103126F#32, 0x4183126F#32] := by decide +kernel
theorem test_backproject_signedZero : got (fun t => [t.px.x, t.px.y, t.px.z]) (exec .backproject
      { withPx { Pixel.clear with d := 0x4282F1AA#32 } with run := ⟨frame, 1#32, 1#32, 0#32⟩ }) =
    some [0xC182F1AA#32, 0x80000000#32, 0x4282F1AA#32] := by decide +kernel

/-! ## Colour stages -/

/-- V-Y26. -/
theorem test_colorDefault : got (fun t => [t.px.r, t.px.g, t.px.b]) (exec .colorDefault running) =
    some [255#8, 255#8, 255#8] := by decide
/-- The luma byte at `0x2000 + 1`. -/
theorem test_lumaFetch : got (fun t => t.px.y8) (exec .lumaFetch running) = some 100#8 := by decide
/-- The chroma pair of the frame is at `0x2000 + 2 * 2`. -/
theorem test_chromaFetch : got (fun t => [t.px.u, t.px.v]) (exec .chromaFetch running) = some [100#8, 160#8] := by decide
/-- V-A4, V-A6 and V-A7. -/
theorem test_chroma_addresses :
    uAddr { frame with colorStride := 8#32, height := 4#32 } 3 5 = 0x202C ∧
    vAddr { frame with colorStride := 5#32, height := 4#32 } 2 0 = 0x2019 ∧
    uAddr { frame with colorStride := 4#32, height := 3#32 } 2 0 = 0x2010 := by decide
/-- V-Y3. -/
theorem test_yuv2rgb_low : got (fun t => [t.px.r, t.px.g, t.px.b]) (exec .yuv2rgb running) =
    some [0#8, 135#8, 0#8] := by decide
/-- V-Y22. -/
theorem test_yuv2rgb : got (fun t => [t.px.r, t.px.g, t.px.b]) (exec .yuv2rgb
      (withPx { Pixel.clear with y8 := 100#8, u := 200#8, v := 50#8 })) = some [0#8, 133#8, 243#8] := by decide
/-- V-Y21. -/
theorem test_packRgba : got (fun t => t.px.w) (exec .packRgba
      (withPx { Pixel.clear with r := 149#8, g := 83#8, b := 41#8 })) = some 0xFF295395#32 := by decide

/-! ## EMIT -/

/-- The working values and the index of V-E1. -/
def emitting (d : Descriptor) (n : Word) : State :=
  { withPx { Pixel.clear with x := 0x41449BA6#32, y := 0x4103126F#32, z := 0x4183126F#32, w := 0xFF295395#32 } with
    run := ⟨d, 0#32, 0#32, n⟩ }

/-- V-E1. -/
theorem test_emit : bytesAt 0x3018 (exec .emit (emitting frame 2#32)) = some [0xA6#8, 0x9B#8, 0x44#8, 0x41#8] ∧
    bytesAt 0x301C (exec .emit (emitting frame 2#32)) = some [0x6F#8, 0x12#8, 0x03#8, 0x41#8] ∧
    bytesAt 0x4008 (exec .emit (emitting frame 2#32)) = some [0x95#8, 0x53#8, 0x29#8, 0xFF#8] := by decide
/-- V-E3. -/
theorem test_emit_misalignedColour :
    reads .status (exec .emit (emitting { frame with colorsAddr := 0x4001#32 } 0#32)) = some 0x511#32 ∧
    bytesAt 0x3008 (exec .emit (emitting { frame with colorsAddr := 0x4001#32 } 0#32)) =
      some [0x6F#8, 0x12#8, 0x83#8, 0x41#8] ∧
    bytesAt 0x4001 (exec .emit (emitting { frame with colorsAddr := 0x4001#32 } 0#32)) = some [0#8, 0#8, 0#8, 0#8] := by
  decide

/-! ## The engine and the arithmetic -/

/-- V-S10: the product of the sizes does not wrap. -/
theorem test_pixelCount_wide :
    pixelCount { frame with width := 65536#32, height := 65536#32, capacity := 0xFFFFFFFF#32 } = 4294967295 := by decide
/-- V-S4 and V-S6: an empty frame and a zero capacity complete at once. -/
theorem test_empty_scan : scanOver (launchedRun { frame with width := 0#32 }) = true ∧
    scanOver (launchedRun { frame with capacity := 0#32 }) = true := by decide
/-- V-A10: no wrap to address 0. -/
theorem test_no_wrap : admitted ⟨0#25, [⟨0, 2 ^ 33, true, true⟩]⟩ .write 0xFFFFFFFC 4 = true ∧
    admitted ⟨0#25, [⟨0, 2 ^ 33, true, true⟩]⟩ .write 0x100000000 4 = false := by decide
/-- The conversions of 95_test_vectors.md section 2.4. -/
theorem test_i2f : i2f 65535#32 = 0x477FFF00#32 ∧ i2f 16777217#32 = 0x4B800000#32 ∧ i2f 16777219#32 = 0x4B800002#32 ∧
    i2f 4294967295#32 = 0x4F800000#32 := by decide +kernel
/-- V-B16 and V-B17: a subnormal product, and overflow to infinity. -/
theorem test_fmul_corners : fmul (i2f 64#32) 0x000002CA#32 = 0x0000B280#32 ∧
    fmul (i2f 128#32) 0x7F61B1E6#32 = 0x7F800000#32 := by decide +kernel
/-- V-B8 and V-B9. -/
theorem test_fdiv : backprojectAxis 0x4282F1AA#32 639#32 0x439FC000#32 0x44034000#32 = 0x421F60A8#32 ∧
    fdiv 0xC2800000#32 0x00000000#32 = 0xFF800000#32 := by decide +kernel
/-- The completion writes the count, clears `BUSY` and sets `DONE` (rule R157). -/
theorem test_completion : reads .status (step (runningAt 1#32 1#32 3#32)) = some 0x05#32 ∧
    reads .outUsed (step (runningAt 1#32 1#32 3#32)) = some 3#32 := by decide
/-- Reset leaves memory canonical and reads `STATUS` as zero (rule R60). -/
theorem test_reset : Memory.wf State.reset.mem = true ∧ (readReg .status State.reset).1 = 0#32 := by decide

/-! ## Witnesses: each meets all hypotheses of the statement it is named after -/

theorem witness_CommandWordsAreFour : 4 ≤ (4#32 : Word).toNat ∧ 4 ≤ (0xFFFFFFFF#32 : Word).toNat := by decide

theorem witness_DecodeAndEncodeAgree : Instr.wellFormed .create = true ∧ decode 3#32 = .ok .destroy := ⟨rfl, rfl⟩

theorem witness_StepRunsTheCommandWritten : decode 1#32 = .ok .create ∧
    (idle.setTurns [commandWrite idle.platform 1#32, .engine]).turns = commandWrite idle.platform 1#32 :: [.engine] ∧
    EngineMoves idle ∧ EngineMoves (running.setTurns [.engine, .reset 0]) ∧
    (idle.setTurns [.hostWrite 4#32 .byte 1#32]).turns = .hostWrite 4#32 .byte 1#32 :: [] ∧
    (idle.setTurns [.hostRead 4#32 .half]).turns = .hostRead 4#32 .half :: [] ∧
    (idle.setTurns [.reset 4]).turns = .reset 4 :: [] := by decide

/-- The first and the last register of the block. -/
theorem witness_RegisterMap : (0x00, Reg.ctrl) ∈ registerMap ∧ (0x7C, Reg.reserved) ∈ registerMap ∧
    (idle.setTurns [.hostWrite (BitVec.ofNat 32 (unprojBase idle.platform + 0x00)) .word 1#32]).turns =
      .hostWrite (BitVec.ofNat 32 (unprojBase idle.platform + 0x00)) .word 1#32 :: [] ∧
    (idle.setTurns [.hostRead (BitVec.ofNat 32 (unprojBase idle.platform + 0x7C)) .word]).turns =
      .hostRead (BitVec.ofNat 32 (unprojBase idle.platform + 0x7C)) .word :: [] := by decide

theorem witness_NopChangesNothing : Idle holding ∧ failed.status.err = true ∧ running.status.err = false ∧
    running.status.busy = true := by decide

theorem witness_CreateLatchesTheContext : Idle idle ∧ idle.status.valid = false := by decide

theorem witness_CreateOnTheTakenSlotFails : Idle holding ∧ holding.status.valid = true := by decide

theorem witness_DestroyClearsValidOnly : Idle holding ∧ Idle idle ∧ idle.status.valid = false ∧
    failed.status.err = true ∧ running.status.err = false ∧ running.status.busy = true := by decide

theorem witness_UnprojectLaunches : Idle holding ∧ holding.status.valid = true ∧ Idle idle ∧
    idle.status.valid = false := by decide

theorem witness_CommandsAreAcceptedOnlyWhenIdle : Instr.isCommand .destroy = true ∧ failed.status.err = true ∧
    running.status.err = false ∧ running.status.busy = true := by decide

theorem witness_IllegalCommandWordFaults : Idle holding ∧ (4#32 : Word) >>> 2 ≠ 0#32 ∧
    (0x80000001#32 : Word) >>> 2 ≠ 0#32 := by decide

theorem witness_WriteWhileBusyStopsTheRun : running.status.err = false ∧ running.status.busy = true := by decide

theorem witness_ErrorStateIgnoresWrites : failed.status.err = true := by decide

theorem witness_RegisterReadsBackWhatWasWritten : Idle holding ∧ isReadWrite .frmFlags = true ∧
    isReadWrite .cfgPpx = true ∧ Reg.ctxPpx ≠ Reg.cfgPpx := by decide

theorem witness_ReadOnlyRegistersIgnoreWrites : Idle holding ∧ isReadWrite .outUsed = false ∧ Reg.outUsed ≠ .ctrl ∧
    isReadWrite .reserved = false ∧ Reg.reserved ≠ .ctrl := by decide

theorem witness_HostReadsHaveNoSideEffect : holding.status.valid = true := by decide

/-- A read of `STATUS` that shows `BUSY = 0` ends the span of rule R84, and one that shows `BUSY = 1` does not. -/
theorem test_status_read_ends_span :
    (hostReadReg .status { holding with exclusive := [frame] }).exclusive = [] ∧
    (hostReadReg .outUsed { holding with exclusive := [frame] }).exclusive = [frame] ∧
    (hostReadReg .status running).exclusive = [frame] := by decide

theorem witness_HostReachesRegistersByAlignedWordsOnly :
    (∃ i, i < widthBytes .byte ∧ inBlock idle.platform ((0xFFFFFF80#32 : Word).toNat + i) = true) ∧ Width.byte ≠ .word ∧
    (∃ i, i < widthBytes .word ∧ inBlock idle.platform ((0xFFFFFF7E#32 : Word).toNat + i) = true) ∧
    (0xFFFFFF7E#32 : Word).toNat % 4 ≠ 0 := by decide

theorem witness_FaultRecordsTheFirstCause : running.status.err = false ∧ failed.status.err = true := by decide

/-- The running state meets the invariant, and so does the error state below. -/
theorem running_inv : Inv running where
  memory := by decide
  causeZero := by decide
  causeKnown := fun h => absurd h (by decide)
  busyNotDone := by decide
  busyNotErr := by decide
  busyValid := by decide
  busyExclusive := by decide
  spansDistinct := by decide
  snapshot := by decide
  counters := fun _ => ⟨by decide, by decide, by decide, by decide, by decide, by decide⟩
  doneCount := by decide
  noWorkingValue := by decide

theorem failed_inv : Inv failed where
  memory := by decide
  causeZero := by decide
  causeKnown := fun _ => ⟨.accessFault, rfl⟩
  busyNotDone := by decide
  busyNotErr := by decide
  busyValid := by decide
  busyExclusive := by decide
  spansDistinct := by decide
  snapshot := by decide
  counters := fun h => absurd h (by decide)
  doneCount := by decide
  noWorkingValue := by decide

theorem witness_OnlyResetLeavesTheErrorState :
    ∃ s t : State, Inv s ∧ s.status.err = true ∧ (∀ k, s.turns.head? ≠ some (.reset k)) ∧ step s = .next t := by
  obtain ⟨t, h, -⟩ := got_elim (show got (fun _ => ()) (step failed) = some () by decide)
  exact ⟨failed, t, failed_inv, rfl, fun k => by simp [failed, holding, idle, State.reset], h⟩

theorem witness_ResetClearsStatusAndKeepsMemory : Memory.wf holding.mem = true ∧ holding.status.busy = false ∧
    Memory.wf running.mem = true ∧ ¬(pointAddr frame 1 ≤ 0x300B ∧ 0x300B < pointAddr frame 1 + 12) ∧
    ¬(colorEntryAddr frame 1 ≤ 0x300B ∧ 0x300B < colorEntryAddr frame 1 + 4) := by decide

/-- The depth sample's address as DepthFetchReadsTheSample writes it. -/
def depthAddressOf (s : State) : Nat :=
  s.run.desc.depthAddr.toNat + s.run.r.toNat * s.run.desc.depthStride.toNat + 2 * s.run.c.toNat

theorem witness_DepthFetchReadsTheSample :
    depthAddressOf (runningOn { frame with depthAddr := 0x1001#32 }) % 2 = 1 ∧
    (depthAddressOf (runningOn { frame with depthAddr := 0x8000#32 }) % 2 = 0 ∧
      admitted running.platform .read (depthAddressOf (runningOn { frame with depthAddr := 0x8000#32 })) 2 = false) ∧
    (depthAddressOf (runningOn { frame with depthAddr := 0x7FFE#32 }) % 2 = 0 ∧
      admitted running.platform .read (depthAddressOf (runningOn { frame with depthAddr := 0x7FFE#32 })) 2 = true) ∧
    runWritesByte frame (depthAddressOf running) = false ∧ runWritesByte frame (depthAddressOf running + 1) = false := by
  decide

theorem witness_DefaultColourIsOpaqueWhite : ∃ s : State, s.px.r = 255#8 ∧ s.px.g = 255#8 ∧ s.px.b = 255#8 :=
  ⟨withPx { Pixel.clear with r := 255#8, g := 255#8, b := 255#8 }, rfl, rfl, rfl⟩

theorem witness_LumaFetchReadsTheByte :
    admitted running.platform .read (lumaAddr { frame with colorAddr := 0x7FFF#32 } 0 1) 1 = false ∧
    admitted running.platform .read (lumaAddr { frame with colorAddr := 0x7FFE#32 } 0 1) 1 = true ∧
    runWritesByte frame (lumaAddr frame 0 1) = false := by decide

theorem witness_ChromaFetchReadsThePair :
    admitted running.platform .read (uAddr { frame with colorAddr := 0x7FFC#32 } 0 1) 1 = false ∧
    (admitted running.platform .read (uAddr { frame with colorAddr := 0x7FFB#32 } 0 1) 1 = true ∧
      admitted running.platform .read (uAddr { frame with colorAddr := 0x7FFB#32 } 0 1 + 1) 1 = false) ∧
    (admitted running.platform .read (uAddr { frame with colorAddr := 0x7FFA#32 } 0 1) 1 = true ∧
      admitted running.platform .read (uAddr { frame with colorAddr := 0x7FFA#32 } 0 1 + 1) 1 = true) ∧
    runWritesByte frame (uAddr frame 0 1) = false ∧ runWritesByte frame (uAddr frame 0 1 + 1) = false := by decide

theorem witness_BlockSharesItsChromaPair : 3 / 2 = 1 ∧ 5 / 2 = 2 := by decide

theorem witness_FetchAndComputeStagesFrame :
    ∃ t, Instr.isCommand .depthFetch = false ∧ Instr.depthFetch ≠ .emit ∧ exec .depthFetch running = .next t := by
  obtain ⟨t, h, -⟩ := got_elim (show got (fun _ => ()) (exec .depthFetch running) = some () by decide)
  exact ⟨t, rfl, by decide, h⟩

/-- No byte is in both output arrays when one ends before the other begins. -/
theorem arrays_apart {d : Descriptor} (h : d.pointsAddr.toNat + 12 * pixelCount d ≤ d.colorsAddr.toNat ∨
    d.colorsAddr.toNat + 4 * pixelCount d ≤ d.pointsAddr.toNat) (a : Nat) :
    (inPointEntries d a && inColorEntries d a) = false := by
  simp only [inPointEntries, inColorEntries, Bool.and_eq_false_iff, decide_eq_false_iff_not]
  omega

theorem witness_EmitStoresTheEntry :
    Memory.wf running.mem = true ∧ pointAddr frame 1 % 4 = 0 ∧ colorEntryAddr frame 1 % 4 = 0 ∧
    admitted running.platform .write (pointAddr frame 1) 4 = true ∧
    admitted running.platform .write (pointAddr frame 1 + 4) 4 = true ∧
    admitted running.platform .write (pointAddr frame 1 + 8) 4 = true ∧
    admitted running.platform .write (colorEntryAddr frame 1) 4 = true ∧
    (pointAddr frame 1 + 12 ≤ colorEntryAddr frame 1 ∨ colorEntryAddr frame 1 + 4 ≤ pointAddr frame 1) ∧
    ∀ a, (inPointEntries frame a && inColorEntries frame a) = false :=
  ⟨by decide, by decide, by decide, by decide, by decide, by decide, by decide, by decide, arrays_apart (by decide)⟩

theorem witness_EmitTouchesOnlyItsEntry : Memory.wf running.mem = true := by decide

/-- The frame with its points array at the end of the platform's memory. -/
def pointsAt (a : Word) : Descriptor := { frame with pointsAddr := a }

/-- The clauses of EmitStopsAtItsFirstFault at index 0, with X, Y, Z or none beyond the last byte, `0x7FFF`. -/
theorem witness_EmitStopsAtItsFirstFault :
    pointAddr (pointsAt 0x3002#32) 0 % 4 ≠ 0 ∧
    (pointAddr (pointsAt 0x8000#32) 0 % 4 = 0 ∧
      admitted running.platform .write (pointAddr (pointsAt 0x8000#32) 0) 4 = false) ∧
    (∀ a, (inPointEntries (pointsAt 0x7FFC#32) a && inColorEntries (pointsAt 0x7FFC#32) a) = false) ∧
    (admitted running.platform .write (pointAddr (pointsAt 0x7FFC#32) 0) 4 = true ∧
      admitted running.platform .write (pointAddr (pointsAt 0x7FFC#32) 0 + 4) 4 = false) ∧
    (∀ a, (inPointEntries (pointsAt 0x7FF8#32) a && inColorEntries (pointsAt 0x7FF8#32) a) = false) ∧
    (admitted running.platform .write (pointAddr (pointsAt 0x7FF8#32) 0) 4 = true ∧
      admitted running.platform .write (pointAddr (pointsAt 0x7FF8#32) 0 + 4) 4 = true ∧
      admitted running.platform .write (pointAddr (pointsAt 0x7FF8#32) 0 + 8) 4 = false) ∧
    (∀ a, (inPointEntries (pointsAt 0x7FF4#32) a && inColorEntries (pointsAt 0x7FF4#32) a) = false) ∧
    (admitted running.platform .write (pointAddr (pointsAt 0x7FF4#32) 0) 4 = true ∧
      admitted running.platform .write (pointAddr (pointsAt 0x7FF4#32) 0 + 4) 4 = true ∧
      admitted running.platform .write (pointAddr (pointsAt 0x7FF4#32) 0 + 8) 4 = true) ∧
    colorEntryAddr { frame with colorsAddr := 0x4001#32 } 0 % 4 ≠ 0 ∧
    (colorEntryAddr { frame with colorsAddr := 0x8000#32 } 0 % 4 = 0 ∧
      admitted running.platform .write (colorEntryAddr { frame with colorsAddr := 0x8000#32 } 0) 4 = false) :=
  ⟨by decide, by decide, arrays_apart (by decide), by decide, arrays_apart (by decide), by decide,
    arrays_apart (by decide), by decide, by decide, by decide⟩

theorem witness_IdleEngineDoesNothing : EngineMoves holding ∧ EngineMoves (holding.setTurns [.engine]) ∧
    holding.status.busy = false := by decide

/-- Each of the three ends of the scan: the capacity, an empty row, the last row. -/
theorem witness_CompletionReportsTheCount :
    (EngineMoves (runningAt 1#32 1#32 3#32) ∧ (runningAt 1#32 1#32 3#32).status.busy = true ∧ (3#32 : Word) = frame.capacity) ∧
    (runningOn { frame with width := 0#32 }).run.desc.width = 0#32 ∧
    (runningAt 2#32 0#32 2#32).run.r = (runningAt 2#32 0#32 2#32).run.desc.height := by decide

theorem witness_PixelStepStoresThePixelAndAdvances :
    EngineMoves running ∧ running.status.busy = true ∧ scanOver running.run = false ∧ Memory.wf running.mem = true ∧
    PixelAdmitted running.platform frame 0 1 1 ∧ depthSampleAddr frame 0 1 % 2 = 0 ∧ pointAddr frame 1 % 4 = 0 ∧
    colorEntryAddr frame 1 % 4 = 0 ∧ (∀ a ∈ pixelBytes frame 0 1, runWritesByte frame a = false) ∧
    (pointAddr frame 1 + 12 ≤ colorEntryAddr frame 1 ∨ colorEntryAddr frame 1 + 4 ≤ pointAddr frame 1) ∧
    ∀ a, (inPointEntries frame a && inColorEntries frame a) = false :=
  ⟨by decide, by decide, by decide, by decide, by decide, by decide, by decide, by decide, by decide, by decide, arrays_apart (by decide)⟩

/-- V-F1's run, where a read faults; runs whose U, V or second point write is the first beyond `0x7FFF`; V-E3's, whose
colour write is misaligned; and the run of the frame, where nothing faults. -/
theorem witness_FaultInAPixelStopsTheRunPrecisely :
    (∀ d ∈ [{ frame with depthAddr := 0x1001#32 }, { frame with colorAddr := 0x7FFC#32 },
        { frame with colorAddr := 0x7FFB#32 }, pointsAt 0x7FFC#32, { frame with colorsAddr := 0x4001#32 }, frame],
      EngineMoves (runningOn d) ∧ (runningOn d).status.busy = true ∧ scanOver (runningOn d).run = false ∧
        Memory.wf (runningOn d).mem = true) ∧
    firstFault running.platform (pixelReads { frame with depthAddr := 0x1001#32 } 0 0) = some .misaligned ∧
    firstFault running.platform (pixelReads { frame with colorAddr := 0x7FFC#32 } 0 0) = some .accessFault ∧
    firstFault running.platform (pixelReads { frame with colorAddr := 0x7FFB#32 } 0 0) = some .accessFault ∧
    firstFault running.platform (pixelReads frame 0 0 ++ pixelWrites (pointsAt 0x7FFC#32) 0) = some .accessFault ∧
    firstFault running.platform (pixelReads frame 0 0 ++ pixelWrites { frame with colorsAddr := 0x4001#32 } 0) =
      some .misaligned ∧
    firstFault running.platform (pixelReads frame 0 0 ++ pixelWrites frame 0) = none := by decide

theorem witness_TableOrderAgreesWithAccessOrder : running.status.busy = true := by decide

theorem witness_WorkingValuesAreNoState : running.status.busy = true := by decide

/-- Two memories that differ outside the pixel's input bytes. -/
theorem witness_PixelStepReadsOnlyItsInputBytes :
    EngineMoves running ∧ running.status.busy = true ∧ scanOver running.run = false ∧ Memory.wf running.mem = true ∧
    Memory.wf (Memory.write running.mem 0x1000 7#8) = true ∧
    (∀ a ∈ pixelBytes frame 0 1, Memory.read (Memory.write running.mem 0x1000 7#8) a = Memory.read running.mem a) ∧
    Memory.write running.mem 0x1000 7#8 ≠ running.mem ∧ got (fun t => t.status.busy) (step running) = some true := by
  decide +kernel

theorem witness_StepKeepsTheInvariant : ∃ t, Inv running ∧ step running = .next t := by
  obtain ⟨t, h, -⟩ := got_elim (show got (fun _ => ()) (step running) = some () by decide +kernel)
  exact ⟨t, running_inv, h⟩

theorem witness_RunComputesTheWholeFrame :
    Idle holding ∧ holding.status.valid = true ∧ Memory.wf holding.mem = true ∧
    (holding.setTurns [commandWrite holding.platform 2#32]).turns = [commandWrite holding.platform 2#32] ∧
    RunPremises holding.platform holding.desc ∧ 2 < pixelCount holding.desc := by decide

theorem witness_BusyRunEnds : Inv running ∧ running.turns = [] ∧ running.status.busy = true :=
  ⟨running_inv, rfl, rfl⟩

theorem witness_OnlyCreateWritesTheContext :
    ∃ t, (∀ k, (idle.withFetchWord 32 1).turns.head? ≠ some (.reset k)) ∧ step (idle.withFetchWord 32 1) = .next t ∧
      t.status.valid = true := by
  obtain ⟨t, h, hv⟩ := got_elim
    (show got (fun t => t.status.valid) (step (idle.withFetchWord 32 1)) = some true by decide +kernel)
  exact ⟨t, fun k => by simp [State.withFetchWord, commandWrite, State.setTurns], h, hv⟩

theorem witness_OnlyCompletionWritesTheCount :
    ∃ s t : State, (∀ k, s.turns.head? ≠ some (.reset k)) ∧ step s = .next t ∧ t.used = 3#32 := by
  obtain ⟨t, h, hu⟩ := got_elim (show got (fun t => t.used) (step (runningAt 1#32 1#32 3#32)) = some 3#32 by decide)
  exact ⟨_, t, fun k => by simp [runningAt, running, holding, idle, State.reset], h, hu⟩

/-- Two runs in their spans: a host write to the first one's entries, after the second one's launch, races. -/
theorem test_first_span_stays :
    got (fun t => (t.exclusive, hostWriteRaces t 0x3000 1, hostReadRaces t 0x5000 1, hostReadRaces t 0x6000 1))
      (exec .unproject { holding with desc := { frame with pointsAddr := 0x5000#32 }, exclusive := [frame] }) =
    some ([{ frame with pointsAddr := 0x5000#32 }, frame], true, true, false) := by decide

/-- A read of `STATUS` that ends a span, and a launch that begins one beside another. -/
theorem witness_SpansBeginAndEnd : Idle { holding with exclusive := [frame] } ∧ holding.status.valid = true ∧
    hostTarget holding.platform (0xFFFFFF84#32 : Word).toNat (widthBytes .word) = .register .status ∧
    got (fun t => t.exclusive) (step { holding with exclusive := [frame], turns := [.hostRead 0xFFFFFF84#32 .word] }) =
      some [] := by decide

/-- A write whose first byte is the last of the points entries, one just past them, and one with no run. -/
theorem witness_HostMemoryWritesRaceOrStore :
    Memory.wf running.mem = true ∧ hostTarget running.platform (0x3023#32 : Word).toNat (widthBytes .half) = .memory ∧
    running.exclusive = [frame] ∧
    (∃ i, i < widthBytes .half ∧ (runReadsByte frame ((0x3023#32 : Word).toNat + i) = true ∨
      runWritesByte frame ((0x3023#32 : Word).toNat + i) = true)) ∧
    hostTarget running.platform (0x3024#32 : Word).toNat (widthBytes .word) = .memory ∧
    (∀ i, i < widthBytes .word → runReadsByte frame ((0x3024#32 : Word).toNat + i) = false ∧
      runWritesByte frame ((0x3024#32 : Word).toNat + i) = false) ∧
    holding.exclusive = [] := by decide

/-- A read that touches the last byte of the points entries, the byte just past them, and an input byte. -/
theorem witness_HostMemoryReadsRaceOrReturn :
    hostTarget running.platform (0x3023#32 : Word).toNat (widthBytes .byte) = .memory ∧ running.exclusive = [frame] ∧
    (∃ i, i < widthBytes .byte ∧ runWritesByte frame ((0x3023#32 : Word).toNat + i) = true) ∧
    hostTarget running.platform (0x3024#32 : Word).toNat (widthBytes .word) = .memory ∧
    (∀ i, i < widthBytes .word → runWritesByte frame ((0x3024#32 : Word).toNat + i) = false) ∧
    (∀ i, i < widthBytes .half → runWritesByte frame ((0x1000#32 : Word).toNat + i) = false) ∧
    holding.exclusive = [] := by decide

theorem witness_EqualReadsMeanEqualMemories :
    ∃ m n : List Host.Cell, Memory.wf m = true ∧ Memory.wf n = true ∧ ∀ a, Memory.read m a = Memory.read n a :=
  ⟨frameMemory, frameMemory, by decide, by decide, fun _ => rfl⟩

/-- A tie, the least overflow and the largest number that does not overflow, in units of `2^-149`. -/
theorem witness_RoundingIsToNearestTiesToEven : exponentField 0x7F7FFFFF#32 < 255 ∧ exponentField 0x80000000#32 < 255 ∧
    finiteMagnitude 0x00000001#32 ≠ 0 ∧ 0 < 2 ∧ roundBits 1 2 < infinityBits ∧ 0 < infinityBits ∧
    (2 ^ 25 - 1) * 2 ^ 252 * 1 ≤ (2 ^ 25 - 1) * 2 ^ 252 ∧ roundBits ((2 ^ 25 - 1) * 2 ^ 252) 1 = infinityBits ∧
    roundBits ((2 ^ 25 - 1) * 2 ^ 252 - 1) 1 = infinityBits - 1 := by decide +kernel

theorem witness_SmallIntegersConvertExactly : (0#32 : Word).toNat < 2 ^ 24 ∧ (0xFFFFFF#32 : Word).toNat < 2 ^ 24 := by
  decide

theorem witness_InvalidOperationsGiveNaN : isNaN 0x7F800001#32 = true ∧ isNaN 0xFFFFFFFF#32 = true ∧
    isZero 0x80000000#32 = true ∧ isZero 0#32 = true ∧ isInf 0x7F800000#32 = true ∧ isInf 0xFF800000#32 = true ∧
    isNaN 0x00000001#32 = false ∧ isZero 0x00000001#32 = false ∧ exponentField 0x7F7FFFFF#32 < 255 ∧
    exponentField 0x80000000#32 < 255 ∧ signBit 0x7F800000#32 ≠ signBit 0xFF800000#32 := by decide

/-- The last byte an access may touch, and the first byte of the block, at the last block of the address space; a byte
of no stretch, and a stretch that admits reads only. -/
theorem test_admitted_edges :
    admitted ⟨0x1FFFFFF#25, [⟨0, 2 ^ 33, true, true⟩]⟩ .read 0xFFFFFF7E 2 = true ∧
    admitted ⟨0x1FFFFFF#25, [⟨0, 2 ^ 33, true, true⟩]⟩ .read 0xFFFFFF7F 2 = false ∧
    admitted ⟨0#25, [⟨0, 2 ^ 33, true, true⟩]⟩ .write 127 1 = false ∧
    admitted ⟨0#25, [⟨0, 2 ^ 33, true, true⟩]⟩ .write 128 1 = true ∧
    admitted ⟨0#25, [⟨256, 4, true, false⟩]⟩ .read 256 4 = true ∧
    admitted ⟨0#25, [⟨256, 4, true, false⟩]⟩ .read 257 4 = false ∧
    admitted ⟨0#25, [⟨256, 4, true, false⟩]⟩ .write 256 4 = false := by decide

theorem witness_NegationMayBeMovedThroughTheAxis : isNaN (fmul 0x3F800000#32 0x40000000#32) = false ∧
    isNaN (fdiv (fmul 0x3F800000#32 0x40000000#32) 0x40000000#32) = false := by decide +kernel

theorem witness_ZeroFocalLengthGivesInfinityOrNaN : isZero 0x80000000#32 = true ∧ exponentField 0x42800000#32 < 255 ∧
    isZero 0x42800000#32 = false ∧ isZero 0#32 = true ∧ isNaN 0x7FC00000#32 = true := by decide

theorem witness_ZeroDepthGivesSignedZeros :
    signBit 0x3A83126F#32 = false ∧ exponentField 0x3A83126F#32 < 255 ∧
    exponentField (fsub (i2f 3#32) 0x3FC00000#32) < 255 ∧ isNaN 0x40000000#32 = false ∧
    isZero 0x40000000#32 = false ∧ isNaN 0xFF800000#32 = false ∧ isZero 0xFF800000#32 = false := by decide +kernel

theorem witness_DivisionByOneIsExact : isNaN 0x00000001#32 = false ∧ isNaN 0xFF800000#32 = false := by decide

end Sys2Proof.Tests
end

section
/-! PROOFS. The binary32 arithmetic of 00_scope.md rule R12 and the idle engine's turn (rules R9 and R272). -/

namespace Sys2Proof.Machine

/-! ## The patterns that `withSign` builds -/

theorem toNat_withSign {bits : Nat} (h : bits < 2 ^ 31) (sign : Bool) :
    (withSign sign bits).toNat = (if sign then 2 ^ 31 else 0) + bits := by
  cases sign
  · simp [withSign]; omega
  · simp [withSign]; omega

@[simp] theorem magnitudeBits_withSign {bits : Nat} (h : bits < 2 ^ 31) (sign : Bool) :
    magnitudeBits (withSign sign bits) = bits := by
  rw [magnitudeBits, toNat_withSign h]
  split <;> omega

theorem signBit_eq_decide (x : Word) : signBit x = decide (2 ^ 31 ≤ x.toNat) := by
  rw [signBit, ← BitVec.msb_eq_getLsbD_last, BitVec.msb_eq_decide]

@[simp] theorem signBit_withSign {bits : Nat} (h : bits < 2 ^ 31) (sign : Bool) :
    signBit (withSign sign bits) = sign := by
  rw [signBit_eq_decide, toNat_withSign h]
  cases sign
  · simpa using h
  · simp

@[simp] theorem signBit_fneg (x : Word) : signBit (fneg x) = !signBit x := by
  simp [signBit, fneg]

@[simp] theorem magnitudeBits_fneg (x : Word) : magnitudeBits (fneg x) = magnitudeBits x := by
  rw [magnitudeBits, fneg, BitVec.toNat_xor, Nat.xor_mod_two_pow]
  simp [magnitudeBits]

/-! ## The classes of patterns -/

theorem isNaN_eq_false_of_finite {x : Word} (h : exponentField x < 255) : isNaN x = false := by
  simp [isNaN, h.ne]

theorem isInf_eq_false_of_finite {x : Word} (h : exponentField x < 255) : isInf x = false := by
  simp [isInf, h.ne]

theorem isNaN_eq_false_of_isInf {x : Word} (h : isInf x = true) : isNaN x = false := by
  simp_all [isInf, isNaN]

theorem isZero_eq_false_of_isInf {x : Word} (h : isInf x = true) : isZero x = false := by
  have hm : exponentField x = 255 := by simp_all [isInf]
  simp only [isZero, decide_eq_false_iff_not]
  unfold exponentField at hm
  omega

theorem exponentField_lt_of_isZero {x : Word} (h : isZero x = true) : exponentField x < 255 := by
  simp_all [isZero, exponentField]

theorem isZero_eq_false_of_finiteMagnitude_ne_zero {x : Word} (h : finiteMagnitude x ≠ 0) : isZero x = false := by
  by_contra hz
  have hm : magnitudeBits x = 0 := by simpa [isZero] using hz
  exact h (by simp [finiteMagnitude, scaledMagnitude, exponentField, fractionField, hm])

/-- Whatever the free choice is, it is a NaN (rule R12, U6; log 3). -/
@[simp] theorem isNaN_freeNaN (op : FpOp) (a b : Word) : isNaN (freeNaN op a b) = true := by
  have hk := (Config.nanChoice op a b).2.isLt
  have hm : magnitudeBits (freeNaN op a b) = infinityBits + 1 + (Config.nanChoice op a b).2 :=
    magnitudeBits_withSign (by simp [infinityBits]; omega) _
  simp only [isNaN, exponentField, fractionField, hm, infinityBits, Bool.and_eq_true, decide_eq_true_eq]
  omega

/-! ## The rounding, without its bound -/

/-- The magnitude in units of `2^-149` of exponent-and-fraction bits, read as if exponents had no bound. -/
def bitsValue (x : Nat) : Nat := scaledMagnitude (x / 2 ^ 23) (x % 2 ^ 23)

/-- How many low bits of `num / den` do not fit in 24. -/
def truncatedExponent (num den : Nat) : Nat := Nat.log2 (num / den) - 23

/-- The leading 24 bits of `num / den`, or all of its bits when there are fewer. -/
def truncatedSignificand (num den : Nat) : Nat := num / (den * 2 ^ truncatedExponent num den)

/-- The exponent-and-fraction bits of `num / den` rounded down. -/
def truncatedBits (num den : Nat) : Nat := truncatedExponent num den * 2 ^ 23 + truncatedSignificand num den

/-- The bits of `num / den` rounded to nearest, ties to even, read as if exponents had no bound. -/
def unboundedBits (num den : Nat) : Nat :=
  let ulp := den * 2 ^ truncatedExponent num den
  truncatedBits num den + if roundsUp (truncatedSignificand num den) (num % ulp) ulp then 1 else 0

theorem roundsUp_iff (q rem den : Nat) :
    roundsUp q rem den = true ↔ den < 2 * rem ∨ (2 * rem = den ∧ q % 2 = 1) := by
  simp [roundsUp]

theorem roundBits_eq_min (num den : Nat) : roundBits num den = min (unboundedBits num den) infinityBits := rfl

theorem finiteMagnitude_eq_bitsValue (x : Word) : finiteMagnitude x = bitsValue (magnitudeBits x) := rfl

/-- A significand of at most 24 bits, normalised unless its exponent is the least one, has the value it says; `2^24`
is the carry into the exponent. -/
theorem bitsValue_of_significand {e q : Nat} (hq : q ≤ 2 ^ 24) (hnorm : e = 0 ∨ 2 ^ 23 ≤ q) :
    bitsValue (e * 2 ^ 23 + q) = q * 2 ^ e := by
  unfold bitsValue scaledMagnitude
  by_cases hsub : q < 2 ^ 23
  · obtain rfl : e = 0 := by omega
    rw [if_pos (by omega)]
    simp
    omega
  · by_cases hcarry : q = 2 ^ 24
    · rw [if_neg (by omega), show (e * 2 ^ 23 + q) / 2 ^ 23 - 1 = e + 1 by omega,
        show (e * 2 ^ 23 + q) % 2 ^ 23 = 0 by omega, hcarry, pow_succ]
      ring
    · rw [if_neg (by omega), show (e * 2 ^ 23 + q) / 2 ^ 23 - 1 = e by omega,
        show 2 ^ 23 + (e * 2 ^ 23 + q) % 2 ^ 23 = q by omega]

/-- Bits grow with the magnitude. -/
theorem bitsValue_strictMono : StrictMono bitsValue := by
  refine strictMono_nat_of_lt_succ fun x => ?_
  obtain ⟨e, q, rfl, hq, hnorm⟩ : ∃ e q, x = e * 2 ^ 23 + q ∧ q < 2 ^ 24 ∧ (e = 0 ∨ 2 ^ 23 ≤ q) :=
    ⟨x / 2 ^ 23 - 1, x - (x / 2 ^ 23 - 1) * 2 ^ 23, by omega, by omega, by omega⟩
  rw [add_assoc, bitsValue_of_significand hq.le hnorm, bitsValue_of_significand hq (by omega)]
  exact Nat.mul_lt_mul_of_pos_right q.lt_succ_self (by positivity)

/-- Every number with 24 significant bits is the value of some bits. -/
theorem exists_bitsValue_eq (e : Nat) {m : Nat} (hm : m < 2 ^ 24) : ∃ x, bitsValue x = m * 2 ^ e := by
  induction e generalizing m with
  | zero => exact ⟨0 * 2 ^ 23 + m, bitsValue_of_significand hm.le (.inl rfl)⟩
  | succ e ih =>
    by_cases hsub : m < 2 ^ 23
    · obtain ⟨x, hx⟩ := ih (m := m * 2) (by omega)
      exact ⟨x, by rw [hx, pow_succ']; ring⟩
    · exact ⟨_, bitsValue_of_significand hm.le (.inr (by omega))⟩

section Truncation

variable (num den : Nat)

theorem truncatedSignificand_eq :
    truncatedSignificand num den = num / den / 2 ^ truncatedExponent num den :=
  (Nat.div_div_eq_div_mul ..).symm

theorem truncatedSignificand_lt : truncatedSignificand num den < 2 ^ 24 := by
  rw [truncatedSignificand_eq, Nat.div_lt_iff_lt_mul (by positivity), ← pow_add]
  exact Nat.lt_log2_self.trans_le (Nat.pow_le_pow_right (by decide) (by unfold truncatedExponent; omega))

theorem truncatedSignificand_normalised :
    truncatedExponent num den = 0 ∨ 2 ^ 23 ≤ truncatedSignificand num den := by
  refine or_iff_not_imp_left.mpr fun he => ?_
  have hlog : 23 + truncatedExponent num den = Nat.log2 (num / den) := by unfold truncatedExponent at *; omega
  have hpos : num / den ≠ 0 := by
    intro h
    simp [truncatedExponent, h] at he
  rw [truncatedSignificand_eq, Nat.le_div_iff_mul_le (by positivity), ← pow_add, hlog]
  exact Nat.log2_self_le hpos

theorem bitsValue_truncatedBits :
    bitsValue (truncatedBits num den) = truncatedSignificand num den * 2 ^ truncatedExponent num den :=
  bitsValue_of_significand (truncatedSignificand_lt num den).le (truncatedSignificand_normalised num den)

theorem bitsValue_truncatedBits_succ :
    bitsValue (truncatedBits num den + 1) =
      (truncatedSignificand num den + 1) * 2 ^ truncatedExponent num den := by
  rw [truncatedBits, add_assoc]
  exact bitsValue_of_significand (truncatedSignificand_lt num den)
    ((truncatedSignificand_normalised num den).imp_right (by omega))

end Truncation

/-- `b` are bits of the quotient rounded to nearest, ties to even: `low` and `low + 1` are the bits whose values the
quotient lies between, and `b` is the nearer of the two. -/
structure RoundedBetween (low b num den : Nat) : Prop where
  above : bitsValue low * den ≤ num
  below : num < bitsValue (low + 1) * den
  nearer : (b = low ∧ 2 * num ≤ (bitsValue low + bitsValue (low + 1)) * den) ∨
    (b = low + 1 ∧ (bitsValue low + bitsValue (low + 1)) * den ≤ 2 * num)
  tieEven : 2 * num = (bitsValue low + bitsValue (low + 1)) * den → b % 2 = 0

/-- The rounding is to nearest, ties to even. -/
theorem unboundedBits_rounded (num : Nat) {den : Nat} (hden : 0 < den) :
    RoundedBetween (truncatedBits num den) (unboundedBits num den) num den := by
  set e := truncatedExponent num den with he
  set q := truncatedSignificand num den with hq
  have hparity : truncatedBits num den % 2 = q % 2 := by rw [truncatedBits, ← hq]; omega
  have hlow : bitsValue (truncatedBits num den) * den = den * 2 ^ e * q := by
    rw [bitsValue_truncatedBits]; ring
  have hhigh : bitsValue (truncatedBits num den + 1) * den = den * 2 ^ e * q + den * 2 ^ e := by
    rw [bitsValue_truncatedBits_succ]; ring
  have hsplit : den * 2 ^ e * q + num % (den * 2 ^ e) = num := Nat.div_add_mod num _
  have hrem : num % (den * 2 ^ e) < den * 2 ^ e := Nat.mod_lt _ (by positivity)
  have hb : unboundedBits num den =
      truncatedBits num den + if roundsUp q (num % (den * 2 ^ e)) (den * 2 ^ e) then 1 else 0 := by
    rw [unboundedBits]
  refine ⟨by omega, by omega, ?nearer, ?tieEven⟩
  all_goals
    rw [add_mul, hlow, hhigh, hb]
    split
  case nearer.isTrue hup =>
    rw [roundsUp_iff] at hup
    exact .inr ⟨rfl, by omega⟩
  case nearer.isFalse hdown =>
    rw [roundsUp_iff] at hdown
    exact .inl ⟨Nat.add_zero _, by omega⟩
  case tieEven.isTrue hup =>
    rw [roundsUp_iff] at hup
    omega
  case tieEven.isFalse hdown =>
    rw [roundsUp_iff] at hdown
    omega

section Nearest

variable {low b num den : Nat}

theorem bitsValue_mul_le {x y : Nat} (h : x ≤ y) (den : Nat) : bitsValue x * den ≤ bitsValue y * den :=
  Nat.mul_le_mul_right den (bitsValue_strictMono.monotone h)

theorem bitsValue_mul_lt {x y : Nat} (h : x < y) (hden : 0 < den) : bitsValue x * den < bitsValue y * den :=
  Nat.mul_lt_mul_of_pos_right (bitsValue_strictMono h) hden

/-- No bits are nearer to the quotient than the rounded ones. -/
theorem RoundedBetween.nearest (h : RoundedBetween low b num den) (x : Nat) :
    |(bitsValue b : Int) * den - num| ≤ |(bitsValue x : Int) * den - num| := by
  obtain ⟨habove, hbelow, hnearer, -⟩ := h
  rw [add_mul] at hnearer
  have hx : bitsValue x * den ≤ bitsValue low * den ∨ bitsValue (low + 1) * den ≤ bitsValue x * den :=
    (Nat.lt_or_ge low x).symm.imp (bitsValue_mul_le · den) (bitsValue_mul_le · den)
  simp only [← Nat.cast_mul, Int.abs_eq_natAbs]
  rcases hnearer with ⟨rfl, hlow⟩ | ⟨rfl, hhigh⟩ <;> omega

/-- Other bits that are as near are the rounded ones' neighbour across the tie. -/
theorem RoundedBetween.even_of_tie (h : RoundedBetween low b num den) (hden : 0 < den) {x : Nat} (hne : x ≠ b)
    (htie : |(bitsValue b : Int) * den - num| = |(bitsValue x : Int) * den - num|) : b % 2 = 0 := by
  refine h.tieEven ?_
  obtain ⟨habove, hbelow, hnearer, -⟩ := h
  rw [add_mul] at hnearer ⊢
  simp only [← Nat.cast_mul, Int.abs_eq_natAbs] at htie
  rcases hnearer with ⟨rfl, hlow⟩ | ⟨rfl, hhigh⟩
  · rcases lt_or_gt_of_ne hne with hx | hx
    · have := bitsValue_mul_lt hx hden
      omega
    · have := bitsValue_mul_le (x := b + 1) hx den
      omega
  · rcases lt_or_gt_of_ne hne with hx | hx
    · have := bitsValue_mul_le (Nat.le_of_lt_succ hx) den
      omega
    · have := bitsValue_mul_lt hx hden
      omega

/-- A value that bits have is not changed by rounding. -/
theorem RoundedBetween.value_eq_of_representable (h : RoundedBetween low b num den) {x : Nat}
    (hx : bitsValue x * den = num) : bitsValue b * den = num := by
  have hle := h.nearest x
  simp only [← Nat.cast_mul, hx, sub_self, abs_zero, abs_nonpos_iff, sub_eq_zero] at hle
  exact_mod_cast hle

end Nearest

/-! ## The rounding with its bound -/

theorem roundBits_le (num den : Nat) : roundBits num den ≤ infinityBits := min_le_right _ _

theorem roundBits_lt (num den : Nat) : roundBits num den < 2 ^ 31 :=
  (roundBits_le num den).trans_lt (by decide)

theorem roundBits_eq_unboundedBits {num den : Nat} (h : roundBits num den < infinityBits) :
    roundBits num den = unboundedBits num den := by
  rw [roundBits_eq_min] at h ⊢
  omega

/-- The largest finite number is odd and the next number would be `2^253` units above it, so the rounded bits reach
`infinityBits` from the number half-way on. -/
theorem roundBits_eq_infinityBits_iff (num : Nat) {den : Nat} (hden : 0 < den) :
    roundBits num den = infinityBits ↔ (2 ^ 25 - 1) * 2 ^ 252 * den ≤ num := by
  have hrounded := unboundedBits_rounded num hden
  have hmax : bitsValue (infinityBits - 1) = (2 ^ 24 - 1) * 2 ^ 253 := by decide +kernel
  have hinf : bitsValue infinityBits = 2 ^ 24 * 2 ^ 253 := by decide +kernel
  rw [roundBits_eq_min, min_eq_right_iff]
  constructor
  · intro hb
    have hnear := hrounded.nearest (infinityBits - 1)
    have hvalue := bitsValue_mul_le hb den
    simp only [← Nat.cast_mul, Int.abs_eq_natAbs] at hnear
    rw [hmax] at hnear
    rw [hinf] at hvalue
    omega
  · intro hnum
    by_contra hb
    have hle : unboundedBits num den ≤ infinityBits - 1 := by omega
    have hvalue := bitsValue_mul_le hle den
    have hnear := hrounded.nearest infinityBits
    have htie := hrounded.even_of_tie hden (x := infinityBits) (by omega)
    simp only [← Nat.cast_mul, Int.abs_eq_natAbs] at hnear htie
    rw [hinf] at hnear htie
    rw [hmax] at hvalue
    have hodd : unboundedBits num den = infinityBits - 1 := by
      by_contra hne
      have hlt := bitsValue_mul_lt (hle.lt_of_ne hne) hden
      rw [hmax] at hlt
      omega
    have heven := htie (by omega)
    rw [hodd] at heven
    exact absurd heven (by decide)

theorem roundBits_zero (den : Nat) : roundBits 0 den = 0 := by
  simp [roundBits, roundsUp]

/-! ## The operations on finite operands -/

@[simp] theorem signBit_roundQuotient (sign : Bool) (num den : Nat) :
    signBit (roundQuotient sign num den) = sign := signBit_withSign (roundBits_lt num den) sign

@[simp] theorem magnitudeBits_roundQuotient (sign : Bool) (num den : Nat) :
    magnitudeBits (roundQuotient sign num den) = roundBits num den := magnitudeBits_withSign (roundBits_lt num den) sign

@[simp] theorem signBit_zero (sign : Bool) : signBit (zero sign) = sign := signBit_withSign (by decide) sign

@[simp] theorem magnitudeBits_zero (sign : Bool) : magnitudeBits (zero sign) = 0 :=
  magnitudeBits_withSign (by decide) sign

section Finite

variable {a b : Word} (ha : exponentField a < 255) (hb : exponentField b < 255)
include ha hb

theorem fmul_finite :
    fmul a b = roundQuotient (signBit a ^^ signBit b) (finiteMagnitude a * finiteMagnitude b) (2 ^ 149) := by
  simp [fmul, isNaN_eq_false_of_finite, isInf_eq_false_of_finite, ha, hb]

theorem fdiv_finite (hne : isZero b = false) :
    fdiv a b = roundQuotient (signBit a ^^ signBit b) (finiteMagnitude a * 2 ^ 149) (finiteMagnitude b) := by
  simp [fdiv, isNaN_eq_false_of_finite, isInf_eq_false_of_finite, ha, hb, hne]

theorem fsub_finite_equal (h : finiteValue a - finiteValue b = 0) :
    fsub a b = zero (signBit a && !signBit b) := by
  simp [fsub, isNaN_eq_false_of_finite, isInf_eq_false_of_finite, ha, hb, h]

theorem fsub_finite_different (h : finiteValue a - finiteValue b ≠ 0) :
    fsub a b = roundQuotient (decide (finiteValue a - finiteValue b < 0))
      (finiteValue a - finiteValue b).natAbs 1 := by
  simp [fsub, isNaN_eq_false_of_finite, isInf_eq_false_of_finite, ha, hb, h]

end Finite

/-- Settles O54: the rounded bits are the nearer of the two values around the quotient, and each operation on finite
operands rounds its exact result. -/
theorem roundingIsToNearestTiesToEven : Obligations.RoundingIsToNearestTiesToEven := by
  refine ⟨fun num den hden => ⟨roundBits_eq_infinityBits_iff num hden, roundBits_le num den, fun hb q _ => ?_⟩,
    fun a b ha hb => ⟨?_, fun hne => ?_, ?_⟩, fun n => ⟨?_, ?_⟩,
    fun x => ⟨signBit_fneg x, magnitudeBits_fneg x⟩⟩
  · have hrounded := unboundedBits_rounded num hden
    rw [← roundBits_eq_unboundedBits hb] at hrounded
    exact ⟨hrounded.nearest q, hrounded.even_of_tie hden⟩
  · simp [fmul_finite ha hb]
  · simp [fdiv_finite ha hb (isZero_eq_false_of_finiteMagnitude_ne_zero hne)]
  · by_cases h : finiteValue a - finiteValue b = 0
    · simp [fsub_finite_equal ha hb h, h, roundBits_zero]
    · rw [if_neg h, fsub_finite_different ha hb h]
      simp
  · simp [i2f]
  · simp [i2f]

/-! ## Conversion of small integers -/

theorem exponentField_lt_iff (x : Word) : exponentField x < 255 ↔ magnitudeBits x < infinityBits :=
  Nat.div_lt_iff_lt_mul (by decide)

theorem roundBits_lt_infinityBits {num : Nat} (h : num < (2 ^ 25 - 1) * 2 ^ 252) :
    roundBits num 1 < infinityBits := by
  refine (roundBits_le num 1).lt_of_ne fun heq => ?_
  have hle := (roundBits_eq_infinityBits_iff num one_pos).mp heq
  omega

/-- A finite value that bits have is not changed by rounding. -/
theorem bitsValue_roundBits {num x : Nat} (hx : bitsValue x = num) (h : num < (2 ^ 25 - 1) * 2 ^ 252) :
    bitsValue (roundBits num 1) = num := by
  rw [roundBits_eq_unboundedBits (roundBits_lt_infinityBits h)]
  simpa using (unboundedBits_rounded num one_pos).value_eq_of_representable (x := x) (by rw [hx, mul_one])

/-- Settles O55: 24 significant bits are the value of some pattern, so rounding keeps them, far below infinity. -/
theorem smallIntegersConvertExactly : Obligations.SmallIntegersConvertExactly := by
  intro n hn
  have hmag : magnitudeBits (i2f n) = roundBits (n.toNat * 2 ^ 149) 1 := magnitudeBits_roundQuotient ..
  have hsign : signBit (i2f n) = false := signBit_roundQuotient ..
  have hsmall : n.toNat * 2 ^ 149 < (2 ^ 25 - 1) * 2 ^ 252 := by omega
  obtain ⟨x, hx⟩ := exists_bitsValue_eq 149 hn
  constructor
  · rw [exponentField_lt_iff, hmag]
    exact roundBits_lt_infinityBits hsmall
  · rw [finiteValue, hsign, finiteMagnitude_eq_bitsValue, hmag, bitsValue_roundBits hx hsmall]
    simp

/-! ## The operations on NaN and infinite operands -/

section NaNOperand

variable {a b : Word} (h : isNaN a = true ∨ isNaN b = true)
include h

theorem fsub_nan : isNaN (fsub a b) = true := by simp [fsub, h]
theorem fmul_nan : isNaN (fmul a b) = true := by simp [fmul, h]
theorem fdiv_nan : isNaN (fdiv a b) = true := by simp [fdiv, h]

end NaNOperand

theorem fdiv_zero_zero {a b : Word} (ha : isZero a = true) (hb : isZero b = true) : isNaN (fdiv a b) = true := by
  simp [fdiv, isNaN_eq_false_of_finite, isInf_eq_false_of_finite, exponentField_lt_of_isZero, ha, hb]

theorem fmul_zero_inf {a b : Word} (ha : isZero a = true) (hb : isInf b = true) : isNaN (fmul a b) = true := by
  have hfin := exponentField_lt_of_isZero ha
  simp [fmul, isNaN_eq_false_of_finite hfin, isInf_eq_false_of_finite hfin, isNaN_eq_false_of_isInf hb, ha, hb]

section InfiniteOperand

variable {a : Word} (ha : isInf a = true)
include ha

theorem fmul_inf_zero {b : Word} (hb : isZero b = true) : isNaN (fmul a b) = true := by
  simp [fmul, isNaN_eq_false_of_finite, exponentField_lt_of_isZero, isNaN_eq_false_of_isInf, ha, hb]

theorem fdiv_inf_inf {b : Word} (hb : isInf b = true) : isNaN (fdiv a b) = true := by
  simp [fdiv, isNaN_eq_false_of_isInf, ha, hb]

theorem fsub_inf_inf_same : isNaN (fsub a a) = true := by
  simp [fsub, isNaN_eq_false_of_isInf, ha]

theorem fsub_inf_inf_opposite {b : Word} (hb : isInf b = true) (h : signBit a ≠ signBit b) :
    fsub a b = infinity (signBit a) := by
  simp [fsub, isNaN_eq_false_of_isInf, ha, hb, h]

theorem fmul_inf_left {b : Word} (hnan : isNaN b = false) (hzero : isZero b = false) :
    fmul a b = infinity (signBit a ^^ signBit b) := by
  simp [fmul, isNaN_eq_false_of_isInf, ha, hnan, hzero]

theorem fmul_inf_right {b : Word} (hnan : isNaN b = false) (hzero : isZero b = false) :
    fmul b a = infinity (signBit a ^^ signBit b) := by
  rw [Bool.xor_comm]
  simp [fmul, isNaN_eq_false_of_isInf, isZero_eq_false_of_isInf, ha, hnan, hzero]

variable {b : Word} (hb : exponentField b < 255)
include hb

theorem fdiv_inf_finite : fdiv a b = infinity (signBit a ^^ signBit b) := by
  simp [fdiv, isNaN_eq_false_of_isInf, isNaN_eq_false_of_finite, isInf_eq_false_of_finite, ha, hb]

theorem fdiv_finite_inf : fdiv b a = zero (signBit a ^^ signBit b) := by
  rw [Bool.xor_comm]
  simp [fdiv, isNaN_eq_false_of_isInf, isNaN_eq_false_of_finite, isInf_eq_false_of_finite, ha, hb]

theorem fsub_inf_finite : fsub a b = infinity (signBit a) := by
  simp [fsub, isNaN_eq_false_of_isInf, isNaN_eq_false_of_finite, isInf_eq_false_of_finite, ha, hb]

theorem fsub_finite_inf : fsub b a = infinity (!signBit a) := by
  simp [fsub, isNaN_eq_false_of_isInf, isNaN_eq_false_of_finite, isInf_eq_false_of_finite, ha, hb]

end InfiniteOperand

/-- Settles O56, one lemma for each class of operands. -/
theorem invalidOperationsGiveNaN : Obligations.InvalidOperationsGiveNaN := by
  refine ⟨by decide, fun a b => ⟨?nan, fdiv_zero_zero, (fdiv_inf_inf ·), ?zeroInf, fsub_inf_inf_same, ?mulInf,
    ?finite, (fsub_inf_inf_opposite ·)⟩⟩
  case nan => exact fun h => ⟨fsub_nan h, fmul_nan h, fdiv_nan h⟩
  case zeroInf => exact fun ha hb => ⟨fmul_zero_inf ha hb, fmul_inf_zero hb ha⟩
  case mulInf => exact fun ha hnan hzero => ⟨fmul_inf_left ha hnan hzero, fmul_inf_right ha hnan hzero⟩
  case finite =>
    exact fun ha hb => ⟨fdiv_inf_finite ha hb, fdiv_finite_inf ha hb, fsub_inf_finite ha hb, fsub_finite_inf ha hb⟩

end Sys2Proof.Machine

namespace Sys2Proof.Safety

open Sys2Proof.Machine

/-! ## The engine's turn -/

/-- A step at the engine's turn is that turn, taken off the schedule where it was waiting (rule R9). -/
theorem step_engineMoves {s : State} (h : EngineMoves s) : step s = engineTurn (s.setTurns s.turns.tail) := by
  cases hturns : s.turns with
  | nil =>
    have hs : s.setTurns [] = s := by rw [← hturns, State.setTurns_self]
    simp [step, hturns, hs]
  | cons t rest =>
    obtain rfl : t = .engine := by simpa [EngineMoves, hturns] using h
    simp [step, hturns, takeTurn]

theorem engineTurn_idle {s : State} (h : s.status.busy = false) : engineTurn s = .next s := by
  simp [engineTurn, h]

/-- Settles O39: the engine's turn changes nothing while no run is busy. -/
theorem idleEngineDoesNothing : Obligations.IdleEngineDoesNothing := by
  intro s hmoves hidle
  rw [step_engineMoves hmoves, engineTurn_idle (by simpa using hidle)]
  rfl

end Sys2Proof.Safety
end

section
/-! PROOFS. The statements about the state of the system (10_state.md). First the laws they rest on: a host write as an
effect behind its acceptance, the registers, and the place a host access goes to. -/

namespace Sys2Proof.Machine

/-! ## A host write is an effect behind its acceptance (rules R46 and R247) -/

/-- What a command does once it is accepted. NOP does nothing; a stage operation is no command. -/
def commandEffect : Instr → State → State
  | .create => createEffect
  | .unproject => launchEffect
  | .destroy => fun s => s.setStatus (statusDestroyed s.status)
  | _ => fun s => s

/-- What a host write to a register does once it is accepted. -/
def writeEffect (r : Reg) (w : Word) : State → State :=
  match r, decode w with
  | .ctrl, .ok i => commandEffect i
  | .ctrl, .error _ => raise .badCmd
  | _, _ => storeReg r w

theorem exec_command {i : Instr} (hi : i.isCommand = true) (s : State) :
    exec i s = .next (whenIdle (commandEffect i) s) := by
  cases i with
  | nop | create | unproject | destroy => rfl
  | _ => cases hi

theorem commandOf_isCommand (cmd : BitVec 2) : (commandOf cmd).isCommand = true := by
  unfold commandOf
  split_ifs <;> rfl

theorem decode_isCommand {w : Word} {i : Instr} (h : decode w = .ok i) : i.isCommand = true := by
  unfold decode at h
  split at h
  · cases h
    exact commandOf_isCommand _
  · cases h

theorem writeReg_eq (r : Reg) (w : Word) (s : State) : writeReg r w s = .next (whenIdle (writeEffect r w) s) := by
  cases r with
  | ctrl =>
    cases hd : decode w with
    | ok i => simp [writeReg, writeEffect, hd, exec_command (decode_isCommand hd)]
    | error e => simp [writeReg, writeEffect, hd]
  | _ => rfl

theorem writeEffect_of_ne_ctrl {r : Reg} (h : r ≠ .ctrl) (w : Word) : writeEffect r w = storeReg r w := by
  cases r with
  | ctrl => exact absurd rfl h
  | _ => rfl

/-! ## Registers -/

/-- A register write touches only the staging and descriptor registers. -/
theorem storeReg_frame (r : Reg) (w : Word) (s : State) :
    storeReg r w s = (s.setCfg (storeReg r w s).cfg).setDesc (storeReg r w s).desc := by
  cases r <;> rfl

theorem readContext_state (v : Word) (s : State) : ∃ f, (readContext v s).2 = s.setFree f := by
  unfold readContext
  split
  · exact ⟨s.free, rfl⟩
  · exact ⟨s.free + 1, rfl⟩

/-- A register read changes at most the count of free values. -/
theorem readReg_state (r : Reg) (s : State) : ∃ f, (readReg r s).2 = s.setFree f := by
  cases r with
  | ctxPpx | ctxPpy | ctxFx | ctxFy | ctxDepthUnit | ctxMinDepth | ctxMaxDepth => exact readContext_state _ s
  | _ => exact ⟨s.free, rfl⟩

/-- A host read changes the value read, the count of free values and, at a read of `STATUS` with `BUSY = 0`, the spans
of rule R84. -/
theorem hostReadReg_eq (r : Reg) (s : State) :
    ∃ f, hostReadReg r s =
      ((s.setFree f).setExclusive (if r = .status ∧ s.status.busy = false then [] else s.exclusive)).setHostData
        (readReg r s).1 := by
  obtain ⟨f, hf⟩ := readReg_state r s
  refine ⟨f, ?_⟩
  simp only [hostReadReg, hf]
  by_cases h : r = .status ∧ s.status.busy = false
  · simp [h]
  · rw [if_neg h, if_neg (by simpa using h)]
    rfl

/-- The word `FRM_FLAGS` reads as: bit 0 is `HAS_COLOR`, the rest zero (rule R38). -/
theorem flagsWord_eq (b : Bool) : 0#31 ++ flagBit b = if b then 1#32 else 0#32 := by
  cases b <;> rfl

theorem flagsWord_getLsbD_zero (w : Word) : 0#31 ++ flagBit (w.getLsbD 0) = w &&& 1#32 := by
  rw [flagsWord_eq, BitVec.and_one_eq_setWidth_ofBool_getLsbD]
  cases w.getLsbD 0 <;> rfl

/-! ## Where a host access goes -/

/-- An access that touches the block is one of a register, or not a move the host has. -/
theorem hostTarget_block {p : Platform} {a n i : Nat} (hi : i < n) (hb : inBlock p (a + i) = true) :
    hostTarget p a n =
      if n = 4 && a % 4 = 0 then .register (regAt (a - unprojBase p)) else .badRegisterAccess := by
  have htouch : ((List.range n).map (a + ·)).any (inBlock p) = true := by
    simpa using ⟨i, hi, hb⟩
  simp [hostTarget, htouch]

/-- The word at word offset `k` of the block is the register of that offset. -/
theorem hostTarget_regAtWord (p : Platform) {k : Nat} (hk : k < 32) :
    hostTarget p (unprojBase p + 4 * k) 4 = .register (regAtWord k) := by
  have hin : inBlock p (unprojBase p + 4 * k + 0) = true := by
    simp only [inBlock, Bool.and_eq_true, decide_eq_true_eq]
    omega
  have haligned : (unprojBase p + 4 * k) % 4 = 0 := by
    unfold unprojBase
    omega
  rw [hostTarget_block (by omega) hin]
  simp [haligned, regAt]

/-- A memory access of the host ends inside the address space. -/
theorem hostTarget_memory_inSpace {p : Platform} {a : Nat} {width : Width}
    (h : hostTarget p a (widthBytes width) = .memory) : a + widthBytes width ≤ 2 ^ 32 := by
  have hall : ∀ i, i < widthBytes width → a + i < 2 ^ 32 := by
    simp only [hostTarget] at h
    split_ifs at h with _ _ hbytes
    intro i hi
    simp only [List.all_map, List.all_eq_true, List.mem_range, Function.comp_apply, Bool.and_eq_true,
      decide_eq_true_eq] at hbytes
    exact (hbytes i hi).1
  have hlast := hall (widthBytes width - 1) (by cases width <;> decide)
  omega

theorem widthBytes_eq_four {width : Width} : widthBytes width = 4 ↔ width = .word := by
  cases width <;> decide

/-! ## Canonical memories -/

/-- Canonical memories that read alike are equal lists: at the first address where one has an entry and the other has
not, the one reads as something else than an unlisted byte. -/
theorem Memory.eq_of_read_eq_from {m n : List Host.Cell} {lo : Nat} (hm : Memory.wfFrom lo m = true)
    (hn : Memory.wfFrom lo n = true) (h : ∀ a, Memory.read m a = Memory.read n a) : m = n := by
  induction m generalizing n lo with
  | nil =>
    cases n with
    | nil => rfl
    | cons cell n =>
      obtain ⟨l, w⟩ := cell
      simp only [Memory.wfFrom, Bool.and_eq_true, decide_eq_true_eq] at hn
      obtain ⟨⟨-, hw⟩, -⟩ := hn
      have := h l
      simp [Memory.read, hw.symm] at this
  | cons cell m ih =>
    obtain ⟨k, v⟩ := cell
    simp only [Memory.wfFrom, Bool.and_eq_true, decide_eq_true_eq] at hm
    obtain ⟨⟨-, hv⟩, hmrest⟩ := hm
    cases n with
    | nil =>
      have := h k
      simp [Memory.read, hv] at this
    | cons cell n =>
      obtain ⟨l, w⟩ := cell
      simp only [Memory.wfFrom, Bool.and_eq_true, decide_eq_true_eq] at hn
      obtain ⟨⟨-, hw⟩, hnrest⟩ := hn
      rcases lt_trichotomy k l with hkl | rfl | hlk
      · have := h k
        simp [Memory.read, hkl, hv] at this
      · obtain rfl : v = w := by simpa [Memory.read] using h k
        have htail : ∀ a, Memory.read m a = Memory.read n a := fun a => by
          rcases Nat.lt_or_ge k a with hka | hak
          · simpa [Memory.read, hka.not_gt, hka.ne'] using h a
          · rw [Memory.read_below hmrest (by omega), Memory.read_below hnrest (by omega)]
        rw [ih hmrest hnrest htail]
      · have := h l
        simp [Memory.read, hlk, hw.symm] at this

end Sys2Proof.Machine
end

section
/-! PROOFS. What one turn of the system can do, said once; and what holds of every step: the invariant (rules R24, R50
to R53 and R139), who writes the context (rule R27), and who writes the count (rule R44). -/

namespace Sys2Proof.Safety

open Sys2Proof.Machine

/-! ## What a turn can do -/

/-- Everything a turn that is not the reset input can make of `s`. -/
inductive TurnResult (s : State) : State → Prop
  /-- An idle engine, NOP, or a host write that is ignored. -/
  | unchanged : TurnResult s s
  | pixelDone {t : State} (busy : s.status.busy = true) (more : scanOver s.run = false) (stages : StageOnly s t)
      (clean : t.status = s.status) : TurnResult s ((t.setRun (advanceRun s.run)).setPx Pixel.clear)
  | pixelFaulted {t : State} {k : FaultCause} (busy : s.status.busy = true) (stages : StageOnly s t)
      (fault : t.status = statusFault k s.status) : TurnResult s (t.setPx Pixel.clear)
  | completed (busy : s.status.busy = true) (ended : scanOver s.run = true) : TurnResult s (completeRun s)
  /-- `BusyWrite`, `BadCmd` or `NoContext`. -/
  | writeFaulted (k : FaultCause) : TurnResult s (raise k s)
  | stored (idle : Idle s) (cfg : Staging) (desc : Descriptor) : TurnResult s ((s.setCfg cfg).setDesc desc)
  | created (idle : Idle s) (free : s.status.valid = false) :
      TurnResult s ((s.setCtx (contextOf s.cfg)).setStatus (statusCreated s.status))
  | createFailed (idle : Idle s) : TurnResult s (s.setStatus (statusCreateFailed s.status))
  | destroyed (idle : Idle s) : TurnResult s (s.setStatus (statusDestroyed s.status))
  | launched (idle : Idle s) (context : s.status.valid = true) :
      TurnResult s (((s.setRun (launchedRun s.desc)).setStatus (statusLaunch s.status)).setExclusive
        (s.exclusive.insert s.desc))
  | memoryWritten {m : List Host.Cell} (wf : Memory.wf s.mem = true → Memory.wf m = true) : TurnResult s (s.setMem m)
  | valueRead (v : Word) (f : Nat) : TurnResult s ((s.setFree f).setHostData v)
  /-- A read of `STATUS` that shows `BUSY = 0` (rule R84). -/
  | endSeen (notBusy : s.status.busy = false) (v : Word) (f : Nat) :
      TurnResult s (((s.setFree f).setExclusive []).setHostData v)

theorem commandEffect_result {s : State} (hidle : Idle s) (i : Instr) : TurnResult s (commandEffect i s) := by
  cases i with
  | create =>
    cases hv : s.status.valid with
    | true => simpa [commandEffect, createEffect, hv] using TurnResult.createFailed hidle
    | false => simpa [commandEffect, createEffect, hv] using TurnResult.created hidle hv
  | unproject =>
    cases hv : s.status.valid with
    | true => simpa [commandEffect, launchEffect, hv] using TurnResult.launched hidle hv
    | false => simpa [commandEffect, launchEffect, hv] using TurnResult.writeFaulted .noContext
  | destroy => exact .destroyed hidle
  | _ => exact .unchanged

theorem storeReg_result {s : State} (hidle : Idle s) (r : Reg) (w : Word) : TurnResult s (storeReg r w s) := by
  rw [storeReg_frame]
  exact .stored hidle _ _

theorem writeEffect_result {s : State} (hidle : Idle s) (r : Reg) (w : Word) :
    TurnResult s (writeEffect r w s) := by
  by_cases hr : r = .ctrl
  · subst hr
    cases hd : decode w with
    | ok i => simpa [writeEffect, hd] using commandEffect_result hidle i
    | error e => simpa [writeEffect, hd] using TurnResult.writeFaulted .badCmd
  · rw [writeEffect_of_ne_ctrl hr]
    exact storeReg_result hidle r w

theorem writeReg_result {r : Reg} {w : Word} {s t : State} (h : writeReg r w s = .next t) : TurnResult s t := by
  rw [writeReg_eq] at h
  injection h with h
  subst h
  rcases whenIdle_cases (writeEffect r w) s with ⟨-, he⟩ | ⟨-, -, he⟩ | ⟨herr, hbusy, he⟩ <;> rw [he]
  · exact .unchanged
  · exact .writeFaulted .busyWrite
  · exact writeEffect_result ⟨herr, hbusy⟩ r w

theorem hostWrite_result {a : Word} {width : Width} {v : Word} {s t : State} (h : hostWrite a width v s = .next t) :
    TurnResult s t := by
  unfold hostWrite at h
  split at h
  next => exact writeReg_result h
  next htarget =>
    split at h
    · cases h
    · injection h with h
      subst h
      exact .memoryWritten fun hwf => Memory.writeBytes_wf _ hwf (hostTarget_memory_inSpace htarget)
  next => cases h
  next => cases h

theorem hostReadReg_result (r : Reg) (s : State) : TurnResult s (hostReadReg r s) := by
  obtain ⟨f, hf⟩ := hostReadReg_eq r s
  rw [hf]
  by_cases h : r = .status ∧ s.status.busy = false
  · rw [if_pos h]
    exact .endSeen h.2 _ f
  · rw [if_neg h]
    exact .valueRead _ f

theorem hostRead_result {a : Word} {width : Width} {s t : State} (h : hostRead a width s = .next t) :
    TurnResult s t := by
  unfold hostRead at h
  split at h
  next r _ =>
    injection h with h
    exact h ▸ hostReadReg_result r s
  next =>
    split at h
    · cases h
    · injection h with h
      exact h ▸ .valueRead _ s.free
  next => cases h
  next => cases h

theorem engineTurn_result {s t : State} (h : engineTurn s = .next t) : TurnResult s t := by
  unfold engineTurn at h
  split at h
  next hbusy =>
    split at h
    next hover =>
      injection h with h
      exact h ▸ .completed hbusy hover
    next hmore =>
      obtain ⟨u, hu, ⟨hst, he⟩ | ⟨k, hst, he⟩⟩ := pixelStep_cases hbusy <;> rw [he] at h <;> injection h with h
      · exact h ▸ .pixelDone hbusy (by simpa using hmore) hu hst
      · exact h ▸ .pixelFaulted hbusy hu hst
  next =>
    injection h with h
    exact h ▸ .unchanged

/-- Everything a step can do: a turn of the engine or the host, or the reset input. -/
theorem step_result {s t : State} (h : step s = .next t) :
    TurnResult (s.setTurns s.turns.tail) t ∨
    ∃ k, s.turns.head? = some (.reset k) ∧ t = resetTurn k (s.setTurns s.turns.tail) := by
  cases hturns : s.turns with
  | nil =>
    rw [step_engineMoves (.inl hturns), hturns] at h
    exact .inl (engineTurn_result h)
  | cons turn rest =>
    simp only [step, hturns] at h
    cases turn with
    | engine => exact .inl (engineTurn_result h)
    | hostWrite a width v => exact .inl (hostWrite_result h)
    | hostRead a width => exact .inl (hostRead_result h)
    | reset k =>
      injection h with h
      exact .inr ⟨k, rfl, h.symm⟩

/-- Everything a step that is not the reset input can do. -/
theorem step_result_of_no_reset {s t : State} (hreset : ∀ k, s.turns.head? ≠ some (.reset k)) (h : step s = .next t) :
    TurnResult (s.setTurns s.turns.tail) t := by
  rcases step_result h with h | ⟨k, hk, -⟩
  · exact h
  · exact absurd hk (hreset k)

/-! ## The scan counters (rules R52 and R153) -/

theorem scanOver_eq_false_iff (u : Run) :
    scanOver u = false ↔ u.n ≠ u.desc.capacity ∧ u.desc.width ≠ 0#32 ∧ u.r ≠ u.desc.height := by
  simp [scanOver, and_assoc]

theorem scanOver_eq_true_iff (u : Run) :
    scanOver u = true ↔ u.n = u.desc.capacity ∨ u.desc.width = 0#32 ∨ u.r = u.desc.height := by
  simp [scanOver, or_assoc]

/-- A word below another one counts up without wrapping. -/
theorem toNat_succ_of_lt {a b : Word} (h : a.toNat < b.toNat) : (a + 1#32).toNat = a.toNat + 1 := by
  have := b.isLt
  rw [BitVec.toNat_add]
  exact Nat.mod_eq_of_lt (by simp; omega)

theorem toNat_lt_of_le_of_ne {a b : Word} (hle : a.toNat ≤ b.toNat) (hne : a ≠ b) : a.toNat < b.toNat :=
  lt_of_le_of_ne hle fun h => hne (BitVec.eq_of_toNat_eq h)

theorem countersInRange_launchedRun (d : Descriptor) : CountersInRange (launchedRun d) where
  index := by simp [launchedRun]
  withinCapacity := by simp [launchedRun]
  rowInFrame := by simp [launchedRun]
  columnInRow hw := toNat_lt_of_le_of_ne (a := 0#32) (by simp) hw.symm
  atEnd _ := rfl
  emptyRow _ := ⟨rfl, rfl⟩

@[simp] theorem advanceRun_desc (u : Run) : (advanceRun u).desc = u.desc := by
  unfold advanceRun
  split <;> rfl

/-- Inside the scan the counters move to the next pixel, at the end of a row to the next row. -/
theorem CountersInRange.advance {u : Run} (h : CountersInRange u) (hmore : scanOver u = false) :
    CountersInRange (advanceRun u) := by
  obtain ⟨hcap, hwidth, hheight⟩ := (scanOver_eq_false_iff u).mp hmore
  have hn := toNat_lt_of_le_of_ne h.withinCapacity hcap
  have hr := toNat_lt_of_le_of_ne h.rowInFrame hheight
  have hc := h.columnInRow hwidth
  have hindex := h.index
  unfold advanceRun
  split
  next hrow =>
    have hlast : u.c.toNat + 1 = u.desc.width.toNat := by rw [← toNat_succ_of_lt hc, hrow]
    exact {
      index := by simp only [toNat_succ_of_lt hn, toNat_succ_of_lt hr, BitVec.toNat_zero, Nat.succ_mul]; omega
      withinCapacity := (toNat_succ_of_lt hn).trans_le hn
      rowInFrame := (toNat_succ_of_lt hr).trans_le hr
      columnInRow := fun _ => by simp only [BitVec.toNat_zero]; omega
      atEnd := fun _ => rfl
      emptyRow := fun hw => absurd hw hwidth }
  next hrow =>
    have hnext : u.c.toNat + 1 ≠ u.desc.width.toNat := fun heq =>
      hrow (BitVec.eq_of_toNat_eq (by rw [toNat_succ_of_lt hc, heq]))
    exact {
      index := by simp only [toNat_succ_of_lt hn, toNat_succ_of_lt hc]; omega
      withinCapacity := (toNat_succ_of_lt hn).trans_le hn
      rowInFrame := hr.le
      columnInRow := fun _ => by simp only [toNat_succ_of_lt hc]; omega
      atEnd := fun hend => absurd hend hheight
      emptyRow := fun hw => absurd hw hwidth }

/-- At the end of the scan the index is the number of pixels of the run (rule R151). -/
theorem CountersInRange.index_eq_pixelCount {u : Run} (h : CountersInRange u) (hover : scanOver u = true) :
    u.n.toNat = pixelCount u.desc := by
  have hcap := h.withinCapacity
  have hframe : u.n.toNat ≤ u.desc.width.toNat * u.desc.height.toNat := by
    rw [h.index, Nat.mul_comm u.desc.width.toNat]
    by_cases hend : u.r = u.desc.height
    · simp [hend, h.atEnd hend]
    · have hr := toNat_lt_of_le_of_ne h.rowInFrame hend
      by_cases hwidth : u.desc.width = 0#32
      · simp [hwidth, h.emptyRow hwidth]
      · calc u.r.toNat * u.desc.width.toNat + u.c.toNat
          _ ≤ (u.r.toNat + 1) * u.desc.width.toNat := by
            rw [Nat.succ_mul]
            exact Nat.add_le_add_left (h.columnInRow hwidth).le _
          _ ≤ u.desc.height.toNat * u.desc.width.toNat := Nat.mul_le_mul_right _ hr
  unfold pixelCount
  rcases (scanOver_eq_true_iff u).mp hover with heq | hwidth | hend
  · rw [← heq, min_eq_left hframe]
  · have hzero : u.n.toNat = 0 := by simpa [hwidth] using hframe
    simp [hwidth, hzero]
  · have hfull : u.n.toNat = u.desc.width.toNat * u.desc.height.toNat := by
      rw [h.index, h.atEnd hend, hend, Nat.mul_comm]
      simp
    rw [← hfull, min_eq_right hcap]

/-! ## The invariant -/

/-- The invariant of a block that is not busy: what it says of a busy run does not apply. -/
theorem inv_of_not_busy {s : State} (hbusy : s.status.busy = false) (memory : Memory.wf s.mem = true)
    (causeZero : s.status.err = false → s.status.cause = 0#4)
    (causeKnown : s.status.err = true → ∃ k, s.status.cause = causeCode k) (spansDistinct : s.exclusive.Nodup)
    (doneCount : s.status.done = true → s.used.toNat = pixelCount s.run.desc) (noWorkingValue : s.px = Pixel.clear) :
    Inv s where
  memory := memory
  causeZero := causeZero
  causeKnown := causeKnown
  busyNotDone h := by simp [hbusy] at h
  busyNotErr h := by simp [hbusy] at h
  busyValid h := by simp [hbusy] at h
  busyExclusive h := by simp [hbusy] at h
  spansDistinct := spansDistinct
  snapshot h := by simp [hbusy] at h
  counters h := by simp [hbusy] at h
  doneCount := doneCount
  noWorkingValue := noWorkingValue

/-- The invariant does not depend on the staging registers, the context, the platform, the turns or the host's data,
of memory only on its form, and of the descriptor registers only while a run is busy. -/
theorem Inv.congr {s t : State} (h : Inv s) (hstatus : t.status = s.status) (hrun : t.run = s.run)
    (hspans : t.exclusive = s.exclusive) (hused : t.used = s.used)
    (hdesc : s.status.busy = true → t.desc = s.desc) (hmem : Memory.wf t.mem = true) (hpx : t.px = Pixel.clear) :
    Inv t where
  memory := hmem
  causeZero := by simpa only [hstatus] using h.causeZero
  causeKnown := by simpa only [hstatus] using h.causeKnown
  busyNotDone := by simpa only [hstatus] using h.busyNotDone
  busyNotErr := by simpa only [hstatus] using h.busyNotErr
  busyValid := by simpa only [hstatus] using h.busyValid
  busyExclusive := by simpa only [hstatus, hrun, hspans] using h.busyExclusive
  spansDistinct := by simpa only [hspans] using h.spansDistinct
  snapshot hb := by
    rw [hstatus] at hb
    rw [hrun, hdesc hb, h.snapshot hb]
  counters := by simpa only [hstatus, hrun] using h.counters
  doneCount := by simpa only [hstatus, hrun, hused] using h.doneCount
  noWorkingValue := hpx

theorem Inv.setTurns {s : State} (h : Inv s) (turns : List Turn) : Inv (s.setTurns turns) :=
  h.congr rfl rfl rfl rfl (fun _ => rfl) h.memory h.noWorkingValue

/-- Taking a fault keeps the invariant: the first cause is a known one, and a recorded one stays. -/
theorem Inv.raise {s : State} (h : Inv s) (k : FaultCause) : Inv (raise k s) :=
  inv_of_not_busy rfl h.memory (fun herr => by simp at herr)
    (fun _ => by
      cases herr : s.status.err with
      | true =>
        obtain ⟨j, hj⟩ := h.causeKnown herr
        exact ⟨j, by rw [raise_status, statusFault_cause_kept herr, hj]⟩
      | false => exact ⟨k, statusFault_cause_first herr⟩)
    h.spansDistinct (by simpa using h.doneCount) h.noWorkingValue

/-- What the stages of a pixel leave keeps the invariant, once the working values are gone and the flags are those
before. -/
theorem Inv.stages {s t : State} (h : Inv s) (hst : StageOnly s t) :
    Inv ((t.setStatus s.status).setPx Pixel.clear) :=
  h.congr rfl hst.run hst.exclusive hst.used (fun _ => hst.desc) (hst.wf h.memory) rfl

theorem Inv.pixelFaulted {s t : State} {k : FaultCause} (h : Inv s) (hst : StageOnly s t)
    (hfault : t.status = statusFault k s.status) : Inv (t.setPx Pixel.clear) := by
  have heq : t.setPx Pixel.clear = Machine.raise k ((t.setStatus s.status).setPx Pixel.clear) := by
    unfold Machine.raise
    simp only [State.setPx_status, State.setStatus_status, ← hfault]
    rfl
  rw [heq]
  exact (h.stages hst).raise k

/-- The counters of a busy run may move to other counters in range. -/
theorem Inv.setRun {s : State} {u : Run} (h : Inv s) (hdesc : u.desc = s.run.desc)
    (hcounters : s.status.busy = true → CountersInRange u) : Inv (s.setRun u) where
  memory := h.memory
  causeZero := h.causeZero
  causeKnown := h.causeKnown
  busyNotDone := h.busyNotDone
  busyNotErr := h.busyNotErr
  busyValid := h.busyValid
  busyExclusive hb := by simpa [hdesc] using h.busyExclusive hb
  spansDistinct := h.spansDistinct
  snapshot hb := by simpa [hdesc] using h.snapshot hb
  counters := hcounters
  doneCount hd := by simpa [hdesc] using h.doneCount hd
  noWorkingValue := h.noWorkingValue

theorem Inv.pixelDone {s t : State} (h : Inv s) (hmore : scanOver s.run = false) (hbusy : s.status.busy = true)
    (hst : StageOnly s t) (hclean : t.status = s.status) :
    Inv ((t.setRun (advanceRun s.run)).setPx Pixel.clear) := by
  have hinv := (h.stages hst).setRun (u := advanceRun s.run) (by simp [hst.run])
    fun _ => (h.counters hbusy).advance hmore
  rw [← hclean] at hinv
  exact hinv

/-- The completion writes the count of the run, which the counters have reached (rules R151 and R157). -/
theorem Inv.completeRun {s : State} (h : Inv s) (hbusy : s.status.busy = true) (hover : scanOver s.run = true) :
    Inv (completeRun s) :=
  inv_of_not_busy rfl h.memory h.causeZero h.causeKnown h.spansDistinct
    (fun _ => (h.counters hbusy).index_eq_pixelCount hover) h.noWorkingValue

/-- `VALID` and `CREATE_FAIL` may change while no run is busy. -/
theorem Inv.setContextFlags {s : State} (h : Inv s) (hbusy : s.status.busy = false) (valid createFail : Bool) :
    Inv (s.setStatus { s.status with valid := valid, createFail := createFail }) :=
  inv_of_not_busy hbusy h.memory h.causeZero h.causeKnown h.spansDistinct h.doneCount h.noWorkingValue

theorem Inv.launched {s : State} (h : Inv s) (hidle : Idle s) (hvalid : s.status.valid = true) :
    Inv (((s.setRun (launchedRun s.desc)).setStatus (statusLaunch s.status)).setExclusive
      (s.exclusive.insert s.desc)) where
  memory := h.memory
  causeZero := h.causeZero
  causeKnown := h.causeKnown
  busyNotDone _ := rfl
  busyNotErr _ := hidle.1
  busyValid _ := hvalid
  busyExclusive _ := List.mem_insert_self
  spansDistinct := h.spansDistinct.insert
  snapshot _ := rfl
  counters _ := countersInRange_launchedRun s.desc
  doneCount hdone := by cases hdone
  noWorkingValue := h.noWorkingValue

/-- The reset of a block with canonical memory meets the invariant, whatever the block was doing. -/
theorem inv_resetBlock {s : State} (hmem : Memory.wf s.mem = true) : Inv (resetBlock s) :=
  inv_of_not_busy rfl hmem (fun _ => rfl) (fun herr => by cases herr) List.nodup_nil (fun hdone => by cases hdone) rfl

/-- Every turn but the reset input keeps the invariant. -/
theorem TurnResult.inv {s t : State} (hres : TurnResult s t) (h : Inv s) : Inv t := by
  cases hres with
  | unchanged => exact h
  | pixelDone busy more stages clean => exact h.pixelDone more busy stages clean
  | pixelFaulted busy stages fault => exact h.pixelFaulted stages fault
  | completed busy ended => exact h.completeRun busy ended
  | writeFaulted k => exact h.raise k
  | stored idle cfg desc =>
    exact h.congr rfl rfl rfl rfl (fun hb => by simp [idle.2] at hb) h.memory h.noWorkingValue
  | created idle free =>
    exact (h.setContextFlags idle.2 true false).congr rfl rfl rfl rfl (fun _ => rfl) h.memory h.noWorkingValue
  | createFailed idle => exact h.setContextFlags idle.2 s.status.valid true
  | destroyed idle => exact h.setContextFlags idle.2 false s.status.createFail
  | launched idle context => exact h.launched idle context
  | memoryWritten wf => exact h.congr rfl rfl rfl rfl (fun _ => rfl) (wf h.memory) h.noWorkingValue
  | valueRead v f => exact h.congr rfl rfl rfl rfl (fun _ => rfl) h.memory h.noWorkingValue
  | endSeen notBusy v f =>
    exact inv_of_not_busy notBusy h.memory h.causeZero h.causeKnown List.nodup_nil h.doneCount h.noWorkingValue

/-- Settles O47, by what a step can do: a turn of the engine or the host keeps the invariant, and after the reset input
only the form of memory is carried over. -/
theorem stepKeepsTheInvariant : Obligations.StepKeepsTheInvariant := by
  intro s t h hstep
  have hturn := h.setTurns s.turns.tail
  rcases step_result hstep with hres | ⟨k, -, rfl⟩
  · exact hres.inv hturn
  · exact inv_resetBlock ((partialPixel_stageOnly k _).wf hturn.memory)

/-- Settles O46: the reset state is what the reset of a block with empty memory leaves. -/
theorem resetMeetsTheInvariant : Obligations.ResetMeetsTheInvariant :=
  inv_resetBlock (s := State.reset) rfl

/-! ## Who writes the context and the count -/

/-- Only a CREATE that succeeds writes the context. -/
theorem TurnResult.ctx {s t : State} (hres : TurnResult s t) :
    t.ctx = s.ctx ∨ (s.status.valid = false ∧ t.status.valid = true ∧ t.ctx = contextOf s.cfg) := by
  cases hres with
  | created idle free => exact .inr ⟨free, rfl, rfl⟩
  | pixelDone busy more stages clean => exact .inl stages.ctx
  | pixelFaulted busy stages fault => exact .inl stages.ctx
  | _ => exact .inl rfl

/-- Only the completion of a run writes the count. -/
theorem TurnResult.used {s t : State} (hres : TurnResult s t) :
    t.used = s.used ∨
      (s.status.busy = true ∧ t.status.busy = false ∧ t.status.done = true ∧ t.used = s.run.n) := by
  cases hres with
  | completed busy ended => exact .inr ⟨busy, rfl, rfl, rfl⟩
  | pixelDone busy more stages clean => exact .inl stages.used
  | pixelFaulted busy stages fault => exact .inl stages.used
  | _ => exact .inl rfl

/-- Settles O50: of the turns only a CREATE on the free slot writes the context. -/
theorem onlyCreateWritesTheContext : Obligations.OnlyCreateWritesTheContext :=
  fun _ _ hreset hstep => (step_result_of_no_reset hreset hstep).ctx

/-- Settles O51: of the turns only the completion writes the count. -/
theorem onlyCompletionWritesTheCount : Obligations.OnlyCompletionWritesTheCount :=
  fun _ _ hreset hstep => (step_result_of_no_reset hreset hstep).used

end Sys2Proof.Safety
end

section
/-! PROOFS. What the stages of a pixel do with the working values: each writes its own and leaves the rest (rule R47),
and none of them needs a value from before the pixel (rule R53). -/

namespace Sys2Proof.Safety

open Sys2Proof.Machine

/-! ## What a stage that stores nothing writes -/

/-- Of the working values `p`, the stage has changed at most its own in `q`. -/
def OnlyOwnValues (i : Instr) (p q : Pixel) : Prop :=
  match i with
  | .depthFetch => q = { p with s := q.s }
  | .linearise => q = { p with d := q.d }
  | .backproject => q = { p with x := q.x, y := q.y, z := q.z }
  | .colorDefault => q = { p with r := q.r, g := q.g, b := q.b }
  | .lumaFetch => q = { p with y8 := q.y8 }
  | .chromaFetch => q = { p with u := q.u, v := q.v }
  | .yuv2rgb => q = { p with r := q.r, g := q.g, b := q.b }
  | .packRgba => q = { p with w := q.w }
  | _ => q = p

theorem OnlyOwnValues.refl (i : Instr) (p : Pixel) : OnlyOwnValues i p p := by
  cases i <;> rfl

/-- Everything a stage that stores nothing can do, apart from the free values drawn: it faults, or it goes through and
writes its own working values. -/
inductive StoreFree (i : Instr) (s : State) : State → Prop
  | faulted (k : FaultCause) (f : Nat) : StoreFree i s (raise k (s.setFree f))
  | through (f : Nat) {v : Pixel} (own : OnlyOwnValues i s.px v) : StoreFree i s ((s.setFree f).setPx v)

theorem StoreFree.of_setFree {i : Instr} {s t : State} {f : Nat} (h : StoreFree i (s.setFree f) t) :
    StoreFree i s t := by
  cases h with
  | faulted k g => exact .faulted k g
  | through g own => exact .through g own

/-- A read faults, or what uses its value decides. -/
theorem StoreFree.readThen {i : Instr} {s : State} {a n : Nat} {use : Nat → State → State}
    (h : ∀ x f, StoreFree i (s.setFree f) (use x (s.setFree f))) : StoreFree i s (readThen a n use s) := by
  rcases readThen_cases a n use s with ⟨k, hk⟩ | ⟨x, f, hx⟩
  · exact hk ▸ .faulted k s.free
  · exact hx ▸ (h x f).of_setFree

theorem exec_storeFree {i : Instr} (hi : i.isCommand = false) (hemit : i ≠ .emit) {s t : State}
    (h : exec i s = .next t) : StoreFree i s t := by
  cases i with
  | nop | create | unproject | destroy => cases hi
  | emit => exact absurd rfl hemit
  | depthFetch | lumaFetch =>
    injection h with h
    exact h ▸ .readThen fun _ f => .through f rfl
  | chromaFetch =>
    injection h with h
    exact h ▸ .readThen fun _ _ => .readThen fun _ f => .through f rfl
  | linearise | backproject | colorDefault | yuv2rgb | packRgba =>
    injection h with h
    exact h ▸ .through s.free rfl

theorem StoreFree.onlyOwnValues {i : Instr} {s t : State} (h : StoreFree i s t) : OnlyOwnValues i s.px t.px := by
  cases h with
  | faulted k f => exact .refl i s.px
  | through f own => exact own

theorem StoreFree.frame {i : Instr} {s t : State} (h : StoreFree i s t) :
    t = { s with px := t.px, status := t.status, free := t.free } ∧
    (t.status = s.status ∨ ∃ k, t = raise k { s with free := t.free }) := by
  cases h with
  | faulted k f => exact ⟨rfl, .inr ⟨k, rfl⟩⟩
  | through f own => exact ⟨rfl, .inl rfl⟩

/-- Settles O35, by what a stage that stores nothing can do. -/
theorem fetchAndComputeStagesFrame : Obligations.FetchAndComputeStagesFrame := by
  intro i s t hi hemit hexec
  have hres := exec_storeFree hi hemit hexec
  have hown := hres.onlyOwnValues
  obtain ⟨hframe, hstatus⟩ := hres.frame
  refine ⟨hframe, hstatus, ?_, ?_, ?_, ?_, ?_, ?_, ?_, ?_⟩ <;> rintro rfl <;> exact hown

/-! ## Which working values a stage needs

Two runs of a pixel that differ only in their working values are followed side by side. After each stage they agree on
the values that the stages so far have made; those are all that the later stages read. -/

/-- From states that differ in their working values, but agree on `known` of them, `act` gives such states that agree
on `made` of them, unless a fault has stopped the pixel. -/
def Agrees {α β : Type} (known : Pixel → α) (act : State → State) (made : Pixel → β) : Prop :=
  ∀ (s : State) (v : Pixel), known v = known s.px →
    ∃ w, act (s.setPx v) = (act s).setPx w ∧ ((act s).status.busy = true → made w = made (act s).px)

/-- Over the stages a pixel does the same whatever the working values are, so long as `known` of them are the same. -/
def NeedsOnly {α : Type} (known : Pixel → α) (stages : List Instr) : Prop :=
  ∀ (s : State) (v : Pixel), known v = known s.px → pixelStepOver stages (s.setPx v) = pixelStepOver stages s

theorem finishPixel_setPx (s : State) (v : Pixel) : finishPixel (s.setPx v) = finishPixel s := by
  cases hbusy : s.status.busy <;> simp only [finishPixel, State.setPx_status, hbusy] <;> rfl

theorem pixelStepOver_cons {i : Instr} {s t : State} (h : exec i s = .next t) (rest : List Instr) :
    pixelStepOver (i :: rest) s = if t.status.busy then pixelStepOver rest t else .next (finishPixel t) := by
  cases hbusy : t.status.busy <;> simp [pixelStepOver, runStages, h, hbusy]

theorem NeedsOnly.nil {α : Type} (known : Pixel → α) : NeedsOnly known [] := fun s v _ => by
  simp [pixelStepOver, runStages, finishPixel_setPx]

theorem NeedsOnly.cons {α β : Type} {known : Pixel → α} {made : Pixel → β} {i : Instr} {rest : List Instr}
    {act : State → State} (hexec : ∀ s, exec i s = .next (act s)) (hact : Agrees known act made)
    (hrest : NeedsOnly made rest) : NeedsOnly known (i :: rest) := by
  intro s v hknown
  obtain ⟨w, hw, hmade⟩ := hact s v hknown
  rw [pixelStepOver_cons (hexec s), pixelStepOver_cons (hexec (s.setPx v)), hw]
  by_cases hbusy : (act s).status.busy = true
  · simp [hbusy, hrest (act s) w (hmade hbusy)]
  · simp [hbusy, finishPixel_setPx]

/-- A computation of working values from the known ones. -/
theorem Agrees.setPx {α β : Type} {known : Pixel → α} {made : Pixel → β} {write : State → Pixel}
    (h : ∀ s v, known v = known s.px → made (write (s.setPx v)) = made (write s)) :
    Agrees known (fun s => s.setPx (write s)) made :=
  fun s v hknown => ⟨write (s.setPx v), rfl, fun _ => h s v hknown⟩

/-- Which values a read gets does not depend on the working values. -/
theorem fetchBytes_setPx (n a : Nat) (s : State) (v : Pixel) :
    fetchBytes n a (s.setPx v) = ((fetchBytes n a s).1, (fetchBytes n a s).2.setPx v) := by
  have hbyte (a : Nat) (s : State) : fetchByte a (s.setPx v) = ((fetchByte a s).1, (fetchByte a s).2.setPx v) := by
    cases hrun : runWritesByte s.run.desc a <;> simp only [fetchByte, State.setPx_run, hrun] <;> rfl
  induction n generalizing a s with
  | zero => rfl
  | succ n ih => simp [fetchBytes, hbyte, ih]

/-- A read faults whatever the working values are, or gives the same value whatever they are. -/
theorem Agrees.readThen {α β : Type} {known : Pixel → α} {made : Pixel → β} {addr : State → Nat} {n : Nat}
    {use : Nat → State → State} (haddr : ∀ s v, addr (s.setPx v) = addr s) (h : ∀ x, Agrees known (use x) made) :
    Agrees known (fun s => readThen (addr s) n use s) made := by
  intro s v hknown
  obtain ⟨f, hf⟩ := fetchBytes_state n (addr s) s
  simp only [Machine.readThen, engineRead_eq, State.setPx_platform, haddr]
  cases accessFaultOf s.platform ⟨.read, addr s, n⟩ with
  | some k => exact ⟨v, rfl, fun hbusy => by simp at hbusy⟩
  | none =>
    simp only [fetchBytes_setPx, hf]
    exact h _ (s.setFree f) v hknown

/-- The engine stores the same words whatever the working values are. -/
theorem storeWords_setPx (ws : List (Nat × Word)) (s : State) (v : Pixel) :
    storeWords ws (s.setPx v) = (storeWords ws s).setPx v := by
  have hbyte (a : Nat) (b : Byte) (s : State) : putByte a b (s.setPx v) = (putByte a b s).setPx v := by
    cases hboth : inPointEntries s.run.desc a && inColorEntries s.run.desc a <;>
      simp only [putByte, State.setPx_run, hboth] <;> rfl
  induction ws generalizing s with
  | nil => rfl
  | cons w rest ih =>
    obtain ⟨a, x⟩ := w
    simp only [storeWords, engineWrite_eq, State.setPx_platform]
    cases accessFaultOf s.platform ⟨.write, a, 4⟩ with
    | some k => rfl
    | none =>
      simp only [putWord, hbyte]
      exact ih _

/-- EMIT needs the point and the packed colour. -/
theorem needsOnly_emit : NeedsOnly (fun p => (p.x, p.y, p.z, p.w)) [.emit] :=
  .cons (fun _ => rfl)
    (fun s v hknown => by
      have hwrites : entryWrites (s.setPx v) = entryWrites s := by
        simp only [Prod.mk.injEq] at hknown
        simp [entryWrites, hknown]
      exact ⟨v, by rw [hwrites, storeWords_setPx], fun _ => rfl⟩)
    (.nil fun _ => ())

/-- PACK_RGBA needs the three channels beside the point. -/
theorem needsOnly_pack_emit : NeedsOnly (fun p => (p.x, p.y, p.z, p.r, p.g, p.b)) [.packRgba, .emit] :=
  .cons (fun _ => rfl) (.setPx fun s v h => by simp_all) needsOnly_emit

theorem needsOnly_pixelStages_color : NeedsOnly (fun _ => ()) (pixelStages true) :=
  .cons (made := fun p => p.s) (fun _ => rfl) (.readThen (fun _ _ => rfl) fun _ => .setPx fun _ _ _ => rfl) <|
  .cons (made := fun p => (p.s, p.y8)) (fun _ => rfl)
    (.readThen (fun _ _ => rfl) fun _ => .setPx fun _ _ h => by simp_all) <|
  .cons (made := fun p => (p.s, p.y8, p.u, p.v)) (fun _ => rfl)
    (.readThen (fun _ _ => rfl) fun _ => .readThen (fun _ _ => rfl) fun _ => .setPx fun _ _ h => by simp_all) <|
  .cons (made := fun p => (p.d, p.y8, p.u, p.v)) (fun _ => rfl) (.setPx fun _ _ h => by simp_all) <|
  .cons (made := fun p => (p.x, p.y, p.z, p.y8, p.u, p.v)) (fun _ => rfl) (.setPx fun _ _ h => by simp_all) <|
  .cons (fun _ => rfl) (.setPx fun _ _ h => by simp_all) needsOnly_pack_emit

theorem needsOnly_pixelStages_plain : NeedsOnly (fun _ => ()) (pixelStages false) :=
  .cons (made := fun p => p.s) (fun _ => rfl) (.readThen (fun _ _ => rfl) fun _ => .setPx fun _ _ _ => rfl) <|
  .cons (made := fun p => p.d) (fun _ => rfl) (.setPx fun _ _ h => by simp_all) <|
  .cons (made := fun p => (p.x, p.y, p.z)) (fun _ => rfl) (.setPx fun _ _ h => by simp_all) <|
  .cons (fun _ => rfl) (.setPx fun _ _ h => by simp_all) needsOnly_pack_emit

/-- Settles O44: of the working values before it a pixel needs none, with a colour plane or without. -/
theorem workingValuesAreNoState : Obligations.WorkingValuesAreNoState := by
  intro s v _
  unfold pixelStep
  rw [State.setPx_run]
  cases s.run.desc.hasColor with
  | true => exact needsOnly_pixelStages_color s v rfl
  | false => exact needsOnly_pixelStages_plain s v rfl

end Sys2Proof.Safety
end

section
/-! PROOFS. The acceptance of commands and writes, the registers as the host sees them, and the canonical form of
memory (rules R21 to R46, R56 and R140). -/

namespace Sys2Proof.Safety

open Sys2Proof.Machine

/-! ## Acceptance -/

theorem raise_busyWrite_of_no_err {s : State} (herr : s.status.err = false) :
    raise .busyWrite s = { s with status := { s.status with err := true, cause := 2#4, busy := false } } := by
  simp [raise, State.setStatus, statusFault, herr, causeCode]

/-- Settles O10: a command is an effect behind the acceptance of a host write. -/
theorem commandsAreAcceptedOnlyWhenIdle : Obligations.CommandsAreAcceptedOnlyWhenIdle := by
  intro i s hi
  rw [exec_command hi]
  constructor
  · intro herr
    rw [whenIdle_err herr]
  · intro herr hbusy
    rw [whenIdle_busy herr hbusy, raise_busyWrite_of_no_err herr]

/-- Settles O14: every host write is an effect behind the acceptance. -/
theorem errorStateIgnoresWrites : Obligations.ErrorStateIgnoresWrites := by
  intro s r w herr
  rw [writeReg_eq, whenIdle_err herr]

theorem writeReg_idle {s : State} (hidle : Idle s) {r : Reg} (hr : r ≠ .ctrl) (w : Word) :
    writeReg r w s = .next (storeReg r w s) := by
  rw [writeReg_eq, whenIdle_idle hidle.1 hidle.2, writeEffect_of_ne_ctrl hr]

/-! ## Registers -/

theorem storeReg_readOnly {r : Reg} (hr : isReadWrite r = false) (w : Word) (s : State) : storeReg r w s = s := by
  cases r with
  | ctrl | status | outUsed | reserved => rfl
  | ctxPpx | ctxPpy | ctxFx | ctxFy | ctxDepthUnit | ctxMinDepth | ctxMaxDepth => rfl
  | _ => cases hr

theorem readReg_storeReg_same {r : Reg} (hr : isReadWrite r = true) (w : Word) (s : State) :
    (readReg r (storeReg r w s)).1 = if r = .frmFlags then w &&& 1#32 else w := by
  cases r with
  | ctrl | status | outUsed | reserved => cases hr
  | ctxPpx | ctxPpy | ctxFx | ctxFy | ctxDepthUnit | ctxMinDepth | ctxMaxDepth => cases hr
  | frmFlags => exact flagsWord_getLsbD_zero w
  | _ => rfl

theorem readContext_fst (v : Word) (s : State) :
    (readContext v s).1 = if s.status.valid then v else Config.freeWord s.free := by
  unfold readContext
  split <;> rfl

/-- A write stores to the field of its own register only. -/
theorem readReg_storeReg_other {r q : Reg} (h : q ≠ r) (w : Word) (s : State) :
    (readReg q (storeReg r w s)).1 = (readReg q s).1 := by
  cases q with
  | ctrl | reserved => rfl
  | status | outUsed | ctxPpx | ctxPpy | ctxFx | ctxFy | ctxDepthUnit | ctxMinDepth | ctxMaxDepth =>
    simp only [readReg, readContext_fst]
    rw [storeReg_frame]
    rfl
  | _ => cases r <;> simp_all [readReg, storeReg]

/-- Settles O15, by what each register reads after a write to it and after a write to another. -/
theorem registerReadsBackWhatWasWritten : Obligations.RegisterReadsBackWhatWasWritten := by
  intro s r w hidle hr
  have hctrl : r ≠ .ctrl := by
    rintro rfl
    cases hr
  exact ⟨storeReg r w s, writeReg_idle hidle hctrl w, readReg_storeReg_same hr w s,
    fun q hq => readReg_storeReg_other hq w s, storeReg_frame r w s⟩

/-- Settles O16. -/
theorem readOnlyRegistersIgnoreWrites : Obligations.ReadOnlyRegistersIgnoreWrites := by
  intro s r w hidle hr hctrl
  rw [writeReg_idle hidle hctrl, storeReg_readOnly hr]

/-- Settles O17: a read changes the model's own fields as `hostReadReg_eq` says, and shows the register's field. -/
theorem hostReadsHaveNoSideEffect : Obligations.HostReadsHaveNoSideEffect := by
  refine ⟨fun s r => ?_, fun s => ?_⟩
  · obtain ⟨f, hf⟩ := hostReadReg_eq r s
    rw [hf]
    rfl
  · refine ⟨rfl, rfl, rfl, rfl, rfl, rfl, rfl, rfl, rfl, rfl, rfl, rfl, rfl, rfl, flagsWord_eq _, rfl, rfl, rfl, rfl,
      rfl, fun hvalid => ?_⟩
    simp [readReg, readContext_fst, hvalid]

/-! ## The layout of `STATUS` (rule R24) -/

theorem statusWord_flags (t : Status) :
    (statusWord t).getLsbD 0 = t.valid ∧ (statusWord t).getLsbD 1 = t.busy ∧ (statusWord t).getLsbD 2 = t.done ∧
    (statusWord t).getLsbD 3 = t.createFail ∧ (statusWord t).getLsbD 4 = t.err := by
  unfold statusWord flagBit
  refine ⟨?_, ?_, ?_, ?_, ?_⟩ <;> repeat rw [BitVec.getLsbD_append]
  all_goals simp

/-- Above the flags stand three zeros, then `CAUSE`, then zeros. -/
theorem statusWord_getLsbD_add_five (t : Status) (i : Nat) :
    (statusWord t).getLsbD (5 + i) = (decide (3 ≤ i) && t.cause.getLsbD (i - 3)) := by
  have habove : 4 ≤ i - 3 → t.cause.getLsbD (i - 3) = false := BitVec.getLsbD_of_ge t.cause (i - 3)
  unfold statusWord flagBit
  repeat rw [BitVec.getLsbD_append]
  by_cases hlow : 3 ≤ i <;> by_cases hhigh : i - 3 < 4 <;> simp_all

/-- A field above the flags is read bit by bit. -/
theorem statusWord_field {t : Status} {n : Nat} (start : Nat) (field : BitVec n)
    (h : ∀ i, i < n → (decide (3 ≤ start + i) && t.cause.getLsbD (start + i - 3)) = field.getLsbD i) :
    (statusWord t).extractLsb' (5 + start) n = field := by
  ext i hi
  rw [BitVec.getElem_extractLsb', Nat.add_assoc, statusWord_getLsbD_add_five, h i hi, BitVec.getLsbD_eq_getElem]

/-- Settles O18: the flags, the three reserved bits above them, `CAUSE`, and the reserved bits above it. -/
theorem statusWordLayout : Obligations.StatusWordLayout := by
  intro s
  obtain ⟨hvalid, hbusy, hdone, hfail, herr⟩ := statusWord_flags s.status
  refine ⟨hvalid, hbusy, hdone, hfail, herr, statusWord_field 0 _ fun i hi => ?_, statusWord_field 3 _ fun i hi => ?_,
    statusWord_field 7 _ fun i hi => ?_⟩
  · simp [show ¬3 ≤ i by omega]
  · simp
  · rw [BitVec.getLsbD_of_ge s.status.cause (7 + i - 3) (by omega)]
    simp

/-! ## The register map and the host's port -/

/-- The map of rule R22 is the registers of the 32 word offsets in their order. -/
theorem registerMap_eq : registerMap = (List.range 32).map fun k => (4 * k, regAtWord k) := by
  decide

/-- The address of a word of the block is a bus address. -/
theorem toNat_blockAddress (p : Platform) {k : Nat} (hk : k < 32) :
    (BitVec.ofNat 32 (unprojBase p + 4 * k)).toNat = unprojBase p + 4 * k := by
  have := p.block.isLt
  rw [BitVec.toNat_ofNat]
  exact Nat.mod_eq_of_lt (by unfold unprojBase; omega)

/-- Settles O19: the table is that of the word offsets, and each of them is the target of the host's word access. -/
theorem registerMap_holds : Obligations.RegisterMap := by
  refine ⟨rfl, fun s rest e he => ?_⟩
  simp only [registerMap_eq, List.mem_map, List.mem_range] at he
  obtain ⟨k, hk, rfl⟩ := he
  have htarget := hostTarget_regAtWord s.platform hk
  refine ⟨htarget, fun v hturns => ?_, fun hturns => ?_⟩
  · simp [step, hturns, takeTurn, hostWrite, toNat_blockAddress _ hk, widthBytes, htarget]
  · simp [step, hturns, takeTurn, hostRead, toNat_blockAddress _ hk, widthBytes, htarget]

/-- Settles O20: an access that touches the block otherwise than by an aligned word has no register as its target. -/
theorem hostReachesRegistersByAlignedWordsOnly : Obligations.HostReachesRegistersByAlignedWordsOnly := by
  rintro s a width v ⟨i, hi, hin⟩ hbad
  have hnotWord : (decide (widthBytes width = 4) && decide (a.toNat % 4 = 0)) = false := by
    rw [Bool.and_eq_false_iff, decide_eq_false_iff_not, decide_eq_false_iff_not, widthBytes_eq_four]
    exact hbad
  have htarget : hostTarget s.platform a.toNat (widthBytes width) = .badRegisterAccess := by
    simp [hostTarget_block hi hin, hnotWord]
  simp [hostWrite, hostRead, htarget]

/-! ## Memory -/

/-- Settles O53. -/
theorem equalReadsMeanEqualMemories : Obligations.EqualReadsMeanEqualMemories :=
  fun _ _ hm hn h => Memory.eq_of_read_eq_from hm hn h

end Sys2Proof.Safety
end

section
/-! PROOFS. The host's accesses to memory (20_memory.md rules R56 and R84): the bytes a read returns, the spans of
launched runs, and the races of reads and writes. -/

namespace Sys2Proof.Machine

/-! ## The bytes a read returns -/

theorem Memory.readBytes_lt (m : List Host.Cell) (a n : Nat) : Memory.readBytes m a n < 2 ^ (8 * n) := by
  induction n generalizing a with
  | zero => simp [Memory.readBytes]
  | succ n ih =>
    have hbyte := (Memory.read m a).isLt
    have hrest := ih (a + 1)
    rw [Memory.readBytes, Nat.mul_succ, Nat.pow_add]
    omega

/-- Byte `i` of the number read from `a` upward is the byte at `a + i`. -/
theorem Memory.readBytes_byte (m : List Host.Cell) (a : Nat) {n i : Nat} (hi : i < n) :
    Memory.readBytes m a n / 2 ^ (8 * i) % 2 ^ 8 = (Memory.read m (a + i)).toNat := by
  induction n generalizing a i with
  | zero => omega
  | succ n ih =>
    have hbyte := (Memory.read m a).isLt
    cases i with
    | zero =>
      simp only [Memory.readBytes, Nat.mul_zero, Nat.pow_zero, Nat.div_one, Nat.add_zero]
      omega
    | succ i =>
      have hshift : Memory.readBytes m a (n + 1) / 2 ^ 8 = Memory.readBytes m (a + 1) n := by
        simp only [Memory.readBytes]
        omega
      rw [Nat.mul_succ, Nat.pow_add, Nat.mul_comm, ← Nat.div_div_eq_div_mul, hshift, ih (a + 1) (by omega),
        Nat.succ_add_eq_add_succ]

/-- A value read of at most four bytes fits the word that holds it. -/
theorem Memory.toNat_ofNat_readBytes (m : List Host.Cell) (a : Nat) {n : Nat} (hn : n ≤ 4) :
    (BitVec.ofNat 32 (Memory.readBytes m a n)).toNat = Memory.readBytes m a n := by
  rw [BitVec.toNat_ofNat]
  exact Nat.mod_eq_of_lt ((Memory.readBytes_lt m a n).trans_le (Nat.pow_le_pow_right (by omega) (by omega)))

theorem Memory.extractLsb'_readBytes (m : List Host.Cell) (a : Nat) {n i : Nat} (hn : n ≤ 4) (hi : i < n) :
    (BitVec.ofNat 32 (Memory.readBytes m a n)).extractLsb' (8 * i) 8 = Memory.read m (a + i) := by
  apply BitVec.eq_of_toNat_eq
  rw [BitVec.extractLsb'_toNat, Memory.toNat_ofNat_readBytes m a hn, Nat.shiftRight_eq_div_pow,
    Memory.readBytes_byte m a hi]

theorem widthBytes_le_four (width : Width) : widthBytes width ≤ 4 := by
  cases width <;> decide

end Sys2Proof.Machine

namespace Sys2Proof.Safety

open Sys2Proof.Machine

/-! ## A memory access of the host -/

theorem hostRead_memory {s : State} {a : Word} {width : Width}
    (h : hostTarget s.platform a.toNat (widthBytes width) = .memory) :
    hostRead a width s =
      if hostReadRaces s a.toNat (widthBytes width) then .fault .hostRace
      else .next (s.setHostData (BitVec.ofNat 32 (Memory.readBytes s.mem a.toNat (widthBytes width)))) := by
  simp [hostRead, h]

theorem hostWrite_memory {s : State} {a : Word} {width : Width} (v : Word)
    (h : hostTarget s.platform a.toNat (widthBytes width) = .memory) :
    hostWrite a width v s =
      if hostWriteRaces s a.toNat (widthBytes width) then .fault .hostRace
      else .next (s.setMem (Memory.writeBytes s.mem a.toNat v (widthBytes width))) := by
  simp [hostWrite, h]

/-- A host access is free of races when no run in its span touches one of its bytes. -/
theorem racesWith_eq_false {touches : Descriptor → Nat → Bool} {s : State} {a n : Nat}
    (h : ∀ d ∈ s.exclusive, ∀ i, i < n → touches d (a + i) = false) : racesWith touches s a n = false := by
  rw [Bool.eq_false_iff, Ne, racesWith_iff]
  rintro ⟨d, hd, i, hi, htouch⟩
  simp [h d hd i hi] at htouch

theorem hostReadRaces_iff (s : State) (a n : Nat) :
    hostReadRaces s a n = true ↔ ∃ d ∈ s.exclusive, ∃ i, i < n ∧ runWritesByte d (a + i) = true :=
  racesWith_iff runWritesByte s a n

theorem hostWriteRaces_iff (s : State) (a n : Nat) :
    hostWriteRaces s a n = true ↔
      ∃ d ∈ s.exclusive, ∃ i, i < n ∧ (runReadsByte d (a + i) = true ∨ runWritesByte d (a + i) = true) := by
  simp [hostWriteRaces, racesWith_iff]

/-- Settles O9: a read races as `hostReadRaces_iff` says; any other gives the bytes of a number of its width. -/
theorem hostMemoryReadsRaceOrReturn : Obligations.HostMemoryReadsRaceOrReturn := by
  intro s a width htarget
  rw [hostRead_memory htarget]
  refine ⟨fun hrace => if_pos ((hostReadRaces_iff s _ _).mpr hrace), fun hclear => ?_⟩
  have hfree : hostReadRaces s a.toNat (widthBytes width) = false := racesWith_eq_false hclear
  have hwidth := widthBytes_le_four width
  refine ⟨_, if_neg (Bool.eq_false_iff.mp hfree), fun i hi => Memory.extractLsb'_readBytes _ _ hwidth hi, ?_⟩
  rw [Memory.toNat_ofNat_readBytes _ _ hwidth]
  exact Memory.readBytes_lt _ _ _

/-! ## The spans of launched runs (rule R84) -/

theorem engineTurn_exclusive {s t : State} (h : engineTurn s = .next t) : t.exclusive = s.exclusive := by
  unfold engineTurn at h
  split at h
  next hbusy =>
    split at h
    next =>
      cases h
      rfl
    next =>
      obtain ⟨u, hstages, ⟨-, he⟩ | ⟨k, -, he⟩⟩ := pixelStep_cases hbusy
      · cases he.symm.trans h
        exact hstages.exclusive
      · cases he.symm.trans h
        exact hstages.exclusive
  next =>
    cases h
    rfl

/-- The launch puts the run beside those in their spans; no other command touches the spans. -/
theorem commandEffect_keepsSpans (i : Instr) (s : State) : s.exclusive ⊆ (commandEffect i s).exclusive := by
  cases i with
  | create =>
    simp only [commandEffect, createEffect]
    split <;> exact List.Subset.refl _
  | unproject =>
    simp only [commandEffect, launchEffect]
    split
    · exact fun d hd => List.mem_insert_of_mem hd
    · exact List.Subset.refl _
  | _ => exact List.Subset.refl _

theorem writeEffect_keepsSpans (r : Reg) (w : Word) (s : State) : s.exclusive ⊆ (writeEffect r w s).exclusive := by
  by_cases hr : r = .ctrl
  · subst hr
    cases hd : decode w with
    | ok i => simpa only [writeEffect, hd] using commandEffect_keepsSpans i s
    | error e => simp [writeEffect, hd]
  · rw [writeEffect_of_ne_ctrl hr, storeReg_frame]
    exact List.Subset.refl _

theorem hostWrite_keepsSpans {a : Word} {width : Width} {v : Word} {s t : State}
    (h : hostWrite a width v s = .next t) : s.exclusive ⊆ t.exclusive := by
  unfold hostWrite at h
  split at h
  next r _ =>
    rw [writeReg_eq] at h
    cases h
    rcases whenIdle_cases (writeEffect r v) s with ⟨-, he⟩ | ⟨-, -, he⟩ | ⟨-, -, he⟩ <;> rw [he]
    · exact List.Subset.refl _
    · exact List.Subset.refl _
    · exact writeEffect_keepsSpans r v s
  next =>
    split at h
    · cases h
    · cases h
      exact List.Subset.refl _
  next => cases h
  next => cases h

/-- A read of the host ends spans only where it is of `STATUS` and shows `BUSY = 0`. -/
theorem hostRead_keepsSpans_or_endSeen {a : Word} {width : Width} {s t : State} (h : hostRead a width s = .next t) :
    s.exclusive ⊆ t.exclusive ∨
    (s.status.busy = false ∧ hostTarget s.platform a.toNat (widthBytes width) = .register .status) := by
  unfold hostRead at h
  split at h
  next r htarget =>
    cases h
    obtain ⟨f, hf⟩ := hostReadReg_eq r s
    by_cases hend : r = .status ∧ s.status.busy = false
    · exact .inr ⟨hend.2, hend.1 ▸ htarget⟩
    · rw [hf, if_neg hend]
      exact .inl (List.Subset.refl _)
  next =>
    split at h
    · cases h
    · cases h
      exact .inl (List.Subset.refl _)
  next => cases h
  next => cases h

theorem step_keepsSpans_or_ends {s t : State} (h : step s = .next t) :
    s.exclusive ⊆ t.exclusive ∨ (∃ k, s.turns.head? = some (.reset k)) ∨
    (s.status.busy = false ∧ ∃ a width, s.turns.head? = some (.hostRead a width) ∧
      hostTarget s.platform a.toNat (widthBytes width) = .register .status) := by
  cases hturns : s.turns with
  | nil =>
    rw [step_engineMoves (.inl hturns)] at h
    exact .inl (engineTurn_exclusive h ▸ List.Subset.refl _)
  | cons turn rest =>
    simp only [step, hturns] at h
    cases turn with
    | engine => exact .inl (engineTurn_exclusive h ▸ List.Subset.refl _)
    | hostWrite a width v => exact .inl (hostWrite_keepsSpans (s := s.setTurns rest) h)
    | hostRead a width =>
      rcases hostRead_keepsSpans_or_endSeen (s := s.setTurns rest) h with hkept | ⟨hbusy, htarget⟩
      · exact .inl hkept
      · exact .inr (.inr ⟨hbusy, a, width, rfl, htarget⟩)
    | reset k => exact .inr (.inl ⟨k, rfl⟩)

/-- A launch puts its run in its span, beside those already there. -/
theorem exec_unproject_spans {s : State} (hidle : Idle s) (hvalid : s.status.valid = true) :
    ∃ t, exec .unproject s = .next t ∧ ∀ d, d ∈ t.exclusive ↔ d = s.desc ∨ d ∈ s.exclusive := by
  refine ⟨commandEffect .unproject s, ?_, fun d => ?_⟩
  · rw [exec_command rfl, whenIdle_idle hidle.1 hidle.2]
  · simp [commandEffect, launchEffect, hvalid]

/-! ## A host write to memory -/

/-- Bytes written where the target is memory land there little-endian, and every other byte stays. -/
theorem writeBytes_of_hostTarget_memory {s : State} {a : Word} {width : Width} (v : Word) (hwf : Memory.wf s.mem = true)
    (htarget : hostTarget s.platform a.toNat (widthBytes width) = .memory) :
    let m := Memory.writeBytes s.mem a.toNat v (widthBytes width)
    Memory.wf m = true ∧
    (∀ i, i < widthBytes width → Memory.read m (a.toNat + i) = wordByte v i) ∧
    ∀ x, ¬(a.toNat ≤ x ∧ x < a.toNat + widthBytes width) → Memory.read m x = Memory.read s.mem x := by
  have hspace := hostTarget_memory_inSpace htarget
  refine ⟨Memory.writeBytes_wf _ hwf hspace, fun i hi => ?_, fun x hx => ?_⟩
  · rw [Memory.read_writeBytes _ hwf hspace, if_pos (by omega), Nat.add_sub_cancel_left]
  · rw [Memory.read_writeBytes _ hwf hspace, if_neg hx]

/-- Settles O52: the launch, what every step does to the spans, and the two outcomes of a write to memory. -/
theorem hostMemoryWritesRaceOrStore : Obligations.HostMemoryWritesRaceOrStore := by
  refine ⟨fun s => exec_unproject_spans, fun s t h => step_keepsSpans_or_ends h, fun s a width v hwf htarget => ?_⟩
  rw [hostWrite_memory v htarget]
  refine ⟨fun hrace => if_pos ((hostWriteRaces_iff s _ _).mpr hrace), fun hclear => ?_⟩
  have hfree : hostWriteRaces s a.toNat (widthBytes width) = false :=
    racesWith_eq_false fun d hd i hi => Bool.or_eq_false_iff.mpr (hclear d hd i hi)
  exact ⟨_, if_neg (Bool.eq_false_iff.mp hfree), writeBytes_of_hostTarget_memory v hwf htarget⟩

end Sys2Proof.Safety
end

section
/-! PROOFS. The encoding (30_encoding.md): the order of the stage table (rule R112), the `CTRL` word (rules R101 to
R103 and R117), and the step that runs a command the host writes (rule R100). -/

namespace Sys2Proof.Safety

open Sys2Proof.Machine

/-! ## The two orders of the stages (rule R112)

The orders differ in where the reads of the colour plane stand. A read moves in front of a computation it does not
depend on: where the read goes through, the two write different working values; where it faults, the pixel ends and the
working values are gone with it. -/

/-- A pixel of a busy run does the same over the two lists of stages. -/
def SamePixel (as bs : List Instr) : Prop :=
  ∀ s : State, s.status.busy = true → pixelStepOver as s = pixelStepOver bs s

theorem SamePixel.trans {as bs cs : List Instr} (h₁ : SamePixel as bs) (h₂ : SamePixel bs cs) : SamePixel as cs :=
  fun s hbusy => (h₁ s hbusy).trans (h₂ s hbusy)

theorem SamePixel.cons {i : Instr} (hi : i.isCommand = false) {as bs : List Instr} (h : SamePixel as bs) :
    SamePixel (i :: as) (i :: bs) := by
  intro s _
  obtain ⟨t, ht, -⟩ := exec_stage hi s
  rw [pixelStepOver_cons ht, pixelStepOver_cons ht]
  split
  · next hbusy => exact h t hbusy
  · rfl

/-- The computation of working values gives the same before `act` as after it; where `act` stops the pixel, the working
values do not count. -/
def Commutes (compute : State → Pixel) (act : State → State) : Prop :=
  ∀ s, ∃ v, act (s.setPx (compute s)) = (act s).setPx v ∧ ((act s).status.busy = true → v = compute (act s))

theorem Commutes.setPx {compute write : State → Pixel}
    (h : ∀ s : State, write (s.setPx (compute s)) = compute (s.setPx (write s))) :
    Commutes compute (fun s => s.setPx (write s)) :=
  fun s => ⟨write (s.setPx (compute s)), rfl, fun _ => h s⟩

/-- A read faults before a computation and after it, or gives the same value. -/
theorem Commutes.readThen {compute : State → Pixel} {addr : State → Nat} {n : Nat} {use : Nat → State → State}
    (h : ∀ x, Commutes compute (use x)) (haddr : ∀ s v, addr (s.setPx v) = addr s := by intros; rfl)
    (hfree : ∀ s f, compute (s.setFree f) = compute s := by intros; rfl) :
    Commutes compute (fun s => readThen (addr s) n use s) := by
  intro s
  obtain ⟨f, hf⟩ := fetchBytes_state n (addr s) s
  simp only [Machine.readThen, engineRead_eq, State.setPx_platform, haddr]
  cases accessFaultOf s.platform ⟨.read, addr s, n⟩ with
  | some k => exact ⟨compute s, rfl, fun hbusy => by simp at hbusy⟩
  | none =>
    simp only [fetchBytes_setPx, hf]
    exact hfree s f ▸ h _ (s.setFree f)

/-- Two neighbouring stages that commute, the first of them a computation, may be exchanged. -/
theorem SamePixel.swap {compute : State → Pixel} {act : State → State} {i j : Instr} (rest : List Instr)
    (hi : ∀ s, exec i s = .next (s.setPx (compute s))) (hj : ∀ s, exec j s = .next (act s))
    (h : Commutes compute act) : SamePixel (i :: j :: rest) (j :: i :: rest) := by
  intro s hs
  obtain ⟨v, hact, hv⟩ := h s
  rw [pixelStepOver_cons (hi s), State.setPx_status, if_pos hs, pixelStepOver_cons (hj _), hact,
    pixelStepOver_cons (hj s), State.setPx_status]
  by_cases hbusy : (act s).status.busy = true
  · rw [if_pos hbusy, if_pos hbusy, pixelStepOver_cons (hi (act s)), State.setPx_status, if_pos hbusy, hv hbusy]
  · rw [if_neg hbusy, if_neg hbusy, finishPixel_setPx]

/-- The depth made from the sample by `f`, as LINEARISE makes it by `lineariseSample` (rule R172). Which values it reads
and writes is all that counts here, and with `f` in the place of `lineariseSample` no proof computes a rounding. -/
def withDepth (f : Half → Word → Word) (s : State) : Pixel := { s.px with d := f s.px.s s.ctx.depthUnit }

/-- What BACKPROJECT writes (rule R173). -/
def backprojected (s : State) : Pixel :=
  { s.px with
    x := backprojectAxis s.px.d s.run.c s.ctx.ppx s.ctx.fx
    y := backprojectAxis (fneg s.px.d) s.run.r s.ctx.ppy s.ctx.fy
    z := s.px.d }

/-- A stage that commutes with LINEARISE and BACKPROJECT moves in front of both. -/
theorem SamePixel.moveBeforeDepth {act : State → State} {j : Instr} (rest : List Instr)
    (hj : ∀ s, exec j s = .next (act s)) (hlin : ∀ f, Commutes (withDepth f) act)
    (hback : Commutes backprojected act) :
    SamePixel (.linearise :: .backproject :: j :: rest) (j :: .linearise :: .backproject :: rest) :=
  (SamePixel.cons rfl (.swap rest (fun _ => rfl) hj hback)).trans (.swap _ (fun _ => rfl) hj (hlin lineariseSample))

theorem lumaFetch_beforeDepth (rest : List Instr) :
    SamePixel (.linearise :: .backproject :: .lumaFetch :: rest) (.lumaFetch :: .linearise :: .backproject :: rest) :=
  .moveBeforeDepth rest (fun _ => rfl)
    (fun _ => .readThen fun _ => .setPx fun _ => rfl)
    (.readThen fun _ => .setPx fun _ => rfl)

theorem chromaFetch_beforeDepth (rest : List Instr) :
    SamePixel (.linearise :: .backproject :: .chromaFetch :: rest)
      (.chromaFetch :: .linearise :: .backproject :: rest) :=
  .moveBeforeDepth rest (fun _ => rfl)
    (fun _ => .readThen fun _ => .readThen fun _ => .setPx fun _ => rfl)
    (.readThen fun _ => .readThen fun _ => .setPx fun _ => rfl)

/-- Settles O43: with a colour plane the luma and then the chroma read move in front of the two computations on the
depth; without one the two lists are the same. -/
theorem tableOrderAgreesWithAccessOrder : Obligations.TableOrderAgreesWithAccessOrder := by
  intro s hbusy
  cases s.run.desc.hasColor with
  | true =>
    exact SamePixel.cons rfl ((lumaFetch_beforeDepth _).trans (.cons rfl (chromaFetch_beforeDepth _))) s hbusy
  | false => rfl

end Sys2Proof.Safety

namespace Sys2Proof

/-! ## The `CTRL` word -/

/-- A word is its two fields, `RSV` above `CMD` (rule R101). -/
theorem rsvField_append_cmdField (w : Word) : rsvField w ++ cmdField w = w :=
  BitVec.extractLsb'_append_extractLsb' (w := 30) (len := 2)

theorem rsvField_ne_zero {w : Word} (h : 4 ≤ w.toNat) : rsvField w ≠ 0#30 := by
  simp only [ne_eq, rsvField, ← BitVec.toNat_inj, BitVec.extractLsb'_toNat, Nat.shiftRight_eq_div_pow,
    BitVec.toNat_ofNat]
  omega

/-- The number of the command that a value of `CMD` names is that value. -/
theorem cmdNumber_commandOf (cmd : BitVec 2) : cmdNumber (commandOf cmd) = some cmd := by
  revert cmd
  decide

theorem encode_of_decode {w : Word} {i : Instr} (h : decode w = .ok i) : encode i = some w := by
  unfold decode at h
  split at h
  · next hrsv =>
    cases h
    rw [encode, cmdNumber_commandOf, Option.map_some, ← hrsv, rsvField_append_cmdField]
  · cases h

/-- Settles O1: the four words by computation, the others by their `RSV` field. -/
theorem commandWordsAreFour : Obligations.CommandWordsAreFour :=
  ⟨rfl, rfl, rfl, rfl, fun _ h => if_neg (rsvField_ne_zero h)⟩

/-- Settles O2, by the word of each command and by the fields of each word that decodes. -/
theorem decodeAndEncodeAgree : Obligations.DecodeAndEncodeAgree := by
  refine ⟨fun i hi => ?_, fun w i h => ⟨Machine.decode_isCommand h, encode_of_decode h⟩⟩
  have hround : Laws.RoundTrip.Statement i := by
    cases i with
    | nop => exact Laws.RoundTrip.nop
    | create => exact Laws.RoundTrip.create
    | unproject => exact Laws.RoundTrip.unproject
    | destroy => exact Laws.RoundTrip.destroy
    | _ => cases hi
  obtain ⟨w, hw⟩ := Option.isSome_iff_exists.mp (hround.1.mp hi)
  exact ⟨w, hw, hround.2 w hw⟩

end Sys2Proof

namespace Sys2Proof.Safety

open Sys2Proof.Machine

/-! ## The step that runs a command -/

theorem step_cons {s : State} {t : Turn} {rest : List Turn} (h : s.turns = t :: rest) :
    step s = takeTurn t (s.setTurns rest) := by
  simp [step, h]

/-- The host's write of a command word is a write to `CTRL`, so it runs the command (rules R22 and R101). -/
theorem takeTurn_commandWrite {w : Word} {i : Instr} (h : decode w = .ok i) (s : State) :
    takeTurn (commandWrite s.platform w) s = exec i s := by
  have haddr : (BitVec.ofNat 32 (unprojBase s.platform)).toNat = unprojBase s.platform :=
    toNat_blockAddress s.platform (k := 0) (by omega)
  have htarget : hostTarget s.platform (unprojBase s.platform) 4 = .register .ctrl :=
    hostTarget_regAtWord s.platform (k := 0) (by omega)
  simp [takeTurn, commandWrite, hostWrite, haddr, widthBytes, htarget, writeReg, h]

/-- Settles O3: the first turn waiting is taken off the schedule, and a command's write runs the command. -/
theorem stepRunsTheCommandWritten : Obligations.StepRunsTheCommandWritten := by
  refine ⟨fun s w i hdecode => ?_, fun s => ⟨step_engineMoves, fun rest => ?_⟩⟩
  · have hruns (s : State) (rest : List Turn) (hturns : s.turns = commandWrite s.platform w :: rest) :
        step s = exec i (s.setTurns rest) :=
      (step_cons hturns).trans (takeTurn_commandWrite hdecode (s.setTurns rest))
    refine ⟨hruns s, hruns (s.withFetchWord 32 w.toNat) s.turns ?_⟩
    simp [State.withFetchWord]
  · exact ⟨fun a width v => step_cons, fun a width => step_cons, fun written => step_cons⟩

end Sys2Proof.Safety
end

section
/-! PROOFS. The commands NOP, CREATE and DESTROY (40_commands.md, rules R130 to R138). A command is its effect behind
the acceptance of a host write: what is left to say here is the effect. -/

namespace Sys2Proof.Safety

open Sys2Proof.Machine

/-- An idle block accepts every command (rules R46 and R247). -/
theorem exec_command_idle {i : Instr} (hi : i.isCommand = true) {s : State} (hidle : Idle s) :
    exec i s = .next (commandEffect i s) := by
  obtain ⟨herr, hbusy⟩ := hidle
  rw [exec_command hi, whenIdle_idle herr hbusy]

theorem createEffect_free {s : State} (hvalid : s.status.valid = false) :
    createEffect s = (s.setCtx (contextOf s.cfg)).setStatus (statusCreated s.status) := by
  simp [createEffect, hvalid]

theorem createEffect_taken {s : State} (hvalid : s.status.valid = true) :
    createEffect s = s.setStatus (statusCreateFailed s.status) := by
  simp [createEffect, hvalid]

/-- Without a context there is no `VALID` to clear (rule R137). -/
theorem commandEffect_destroy_of_not_valid {s : State} (hvalid : s.status.valid = false) :
    commandEffect .destroy s = s := by
  have hsame : statusDestroyed s.status = s.status := by simp [statusDestroyed, ← hvalid]
  exact congrArg s.setStatus hsame

/-- Settles O4: an idle block accepts NOP, whose effect is none; otherwise NOP meets the fate of every command. -/
theorem nopChangesNothing : Obligations.NopChangesNothing := by
  refine ⟨rfl, fun s => ?_⟩
  obtain ⟨hignored, hdropped⟩ := commandsAreAcceptedOnlyWhenIdle .nop s rfl
  exact ⟨fun h => h.elim (exec_command_idle rfl) hignored, hdropped⟩

/-- Settles O5: the effect of CREATE on the free slot, and the two roundings of the rule's example by computation. -/
theorem createLatchesTheContext : Obligations.CreateLatchesTheContext := by
  refine ⟨fun s hidle hvalid => ?_, by decide +kernel, by decide +kernel⟩
  rw [exec_command_idle rfl hidle, commandEffect, createEffect_free hvalid]
  rfl

/-- Settles O6: the effect of CREATE on the taken slot. -/
theorem createOnTheTakenSlotFails : Obligations.CreateOnTheTakenSlotFails := by
  intro s hidle hvalid
  rw [exec_command_idle rfl hidle, commandEffect, createEffect_taken hvalid]
  rfl

/-- Settles O7: the effect of DESTROY on an idle block, which is none where no context exists; otherwise DESTROY meets
the fate of every command. -/
theorem destroyClearsValidOnly : Obligations.DestroyClearsValidOnly := by
  refine ⟨rfl, fun s => ⟨exec_command_idle rfl, fun hidle hvalid => ?_, commandsAreAcceptedOnlyWhenIdle .destroy s rfl⟩⟩
  rw [exec_command_idle rfl hidle, commandEffect_destroy_of_not_valid hvalid]

end Sys2Proof.Safety
end

section
/-! PROOFS. The scan (41_unproject_scan.md): the launch and the completion (rules R150 and R157), a pixel whose accesses
all go through (rules R153 and R159), the end of every run (rules R161 and R290), and a whole run (rule R151). -/

namespace Sys2Proof.Machine

/-! ## Words stored one after another -/

/-- Memory with the words written from their addresses upward, in their order. -/
def Memory.writeWords : List Host.Cell → List (Nat × Word) → List Host.Cell
  | m, [] => m
  | m, (a, v) :: rest => Memory.writeWords (Memory.writeBytes m a v 4) rest

theorem Memory.writeWords_wf {m : List Host.Cell} {ws : List (Nat × Word)} (hwf : Memory.wf m = true)
    (hspace : ∀ w ∈ ws, w.1 + 4 ≤ 2 ^ 32) : Memory.wf (Memory.writeWords m ws) = true := by
  induction ws generalizing m with
  | nil => exact hwf
  | cons w rest ih =>
    rw [List.forall_mem_cons] at hspace
    exact ih (Memory.writeBytes_wf 4 hwf hspace.1) hspace.2

theorem Memory.read_writeWords_other {m : List Host.Cell} {ws : List (Nat × Word)} {x : Nat}
    (hwf : Memory.wf m = true) (hspace : ∀ w ∈ ws, w.1 + 4 ≤ 2 ^ 32) (hx : ∀ w ∈ ws, ¬(w.1 ≤ x ∧ x < w.1 + 4)) :
    Memory.read (Memory.writeWords m ws) x = Memory.read m x := by
  induction ws generalizing m with
  | nil => rfl
  | cons w rest ih =>
    rw [List.forall_mem_cons] at hspace hx
    calc Memory.read (Memory.writeWords m (w :: rest)) x
      _ = Memory.read (Memory.writeBytes m w.1 w.2 4) x :=
        ih (Memory.writeBytes_wf 4 hwf hspace.1) hspace.2 hx.2
      _ = Memory.read m x := by rw [Memory.read_writeBytes 4 hwf hspace.1, if_neg hx.1]

/-- The two words share no byte. -/
def WordsApart (v w : Nat × Word) : Prop := v.1 + 4 ≤ w.1 ∨ w.1 + 4 ≤ v.1

/-- Of words that share no byte each stands in memory at the end. -/
theorem Memory.read_writeWords_mem {m : List Host.Cell} {ws : List (Nat × Word)} (hwf : Memory.wf m = true)
    (hspace : ∀ w ∈ ws, w.1 + 4 ≤ 2 ^ 32) (hapart : ws.Pairwise WordsApart) :
    ∀ w ∈ ws, ∀ i, i < 4 → Memory.read (Memory.writeWords m ws) (w.1 + i) = wordByte w.2 i := by
  induction ws generalizing m with
  | nil => simp
  | cons v rest ih =>
    rw [List.forall_mem_cons] at hspace ⊢
    rw [List.pairwise_cons] at hapart
    have hwf' := Memory.writeBytes_wf (v := v.2) 4 hwf hspace.1
    refine ⟨fun i hi => ?_, ih hwf' hspace.2 hapart.2⟩
    calc Memory.read (Memory.writeWords m (v :: rest)) (v.1 + i)
      _ = Memory.read (Memory.writeBytes m v.1 v.2 4) (v.1 + i) :=
        Memory.read_writeWords_other hwf' hspace.2 fun w hw hin => by
          have := hapart.1 w hw
          unfold WordsApart at this
          omega
      _ = wordByte v.2 i := by
        rw [Memory.read_writeBytes 4 hwf hspace.1, if_pos (by omega), Nat.add_sub_cancel_left]

/-- Words that are aligned, admitted and each outside one of the two output arrays are stored as given. -/
theorem storeWords_clean {ws : List (Nat × Word)} {s : State} (haligned : ∀ w ∈ ws, w.1 % 4 = 0)
    (hadmitted : ∀ w ∈ ws, admitted s.platform .write w.1 4 = true)
    (honce : ∀ w ∈ ws, ∀ i, i < 4 →
      (inPointEntries s.run.desc (w.1 + i) && inColorEntries s.run.desc (w.1 + i)) = false) :
    storeWords ws s = s.setMem (Memory.writeWords s.mem ws) := by
  induction ws generalizing s with
  | nil => rfl
  | cons w rest ih =>
    rw [List.forall_mem_cons] at haligned hadmitted honce
    rw [storeWords_cons_clean haligned.1 hadmitted.1 honce.1]
    exact ih haligned.2 hadmitted.2 honce.2

/-! ## Reading one byte and one sample -/

theorem ofNat_readBytes_one (m : List Host.Cell) (a : Nat) :
    BitVec.ofNat 8 (Memory.readBytes m a 1) = Memory.read m a := by
  simp [Memory.readBytes]

/-- Two bytes read little-endian are the second above the first (rule R76). -/
theorem ofNat_readBytes_two (m : List Host.Cell) (a : Nat) :
    BitVec.ofNat 16 (Memory.readBytes m a 2) = Memory.read m (a + 1) ++ Memory.read m a := by
  apply BitVec.eq_of_toNat_eq
  rw [BitVec.toNat_ofNat, Nat.mod_eq_of_lt (Memory.readBytes_lt m a 2), BitVec.toNat_append,
    ← Nat.shiftLeft_add_eq_or_of_lt (Memory.read m a).isLt, Nat.shiftLeft_eq]
  simp only [Memory.readBytes]
  omega

end Sys2Proof.Machine

namespace Sys2Proof.Safety

open Sys2Proof.Machine

/-! ## The launch and the completion -/

theorem launchEffect_context {s : State} (hvalid : s.status.valid = true) :
    launchEffect s = ((s.setRun (launchedRun s.desc)).setStatus (statusLaunch s.status)).setExclusive
      (s.exclusive.insert s.desc) := by
  simp [launchEffect, hvalid]

theorem launchEffect_noContext {s : State} (hvalid : s.status.valid = false) :
    launchEffect s = raise .noContext s := by
  simp [launchEffect, hvalid]

/-- A fault of an idle block without one recorded sets `ERR` and the cause only. -/
theorem raise_of_idle {s : State} (hidle : Idle s) (k : FaultCause) :
    raise k s = { s with status := { s.status with err := true, cause := causeCode k } } := by
  obtain ⟨herr, hbusy⟩ := hidle
  simp [raise, State.setStatus, statusFault, herr, hbusy]

/-- Settles O8: the effect of the launch with a context and without one. -/
theorem unprojectLaunches : Obligations.UnprojectLaunches := by
  refine ⟨rfl, fun s hidle => ⟨fun hvalid => ⟨s.exclusive.insert s.desc, ?_⟩, fun hvalid => ?_⟩⟩
  · rw [exec_command_idle rfl hidle, commandEffect, launchEffect_context hvalid]
    rfl
  · rw [exec_command_idle rfl hidle, commandEffect, launchEffect_noContext hvalid, raise_of_idle hidle]
    rfl

theorem engineTurn_complete {s : State} (hbusy : s.status.busy = true) (hover : scanOver s.run = true) :
    engineTurn s = .next (completeRun s) := by
  simp [engineTurn, hbusy, hover]

theorem engineTurn_pixel {s : State} (hbusy : s.status.busy = true) (hmore : scanOver s.run = false) :
    engineTurn s = pixelStep s := by
  simp [engineTurn, hbusy, hmore]

/-- Settles O40: at the end of the scan the engine's turn is the completion. -/
theorem completionReportsTheCount : Obligations.CompletionReportsTheCount := by
  intro s hmoves hbusy hend
  rw [step_engineMoves hmoves]
  exact engineTurn_complete hbusy ((scanOver_eq_true_iff s.run).mpr hend)

/-! ## How far the counters are from the end -/

/-- Inside the scan the index is below the number of pixels of the run (rule R151). -/
theorem CountersInRange.index_lt_pixelCount {u : Run} (h : CountersInRange u) (hmore : scanOver u = false) :
    u.n.toNat < pixelCount u.desc := by
  obtain ⟨hcap, hwidth, hheight⟩ := (scanOver_eq_false_iff u).mp hmore
  have hframe : u.n.toNat < u.desc.width.toNat * u.desc.height.toNat :=
    calc u.n.toNat
      _ = u.r.toNat * u.desc.width.toNat + u.c.toNat := h.index
      _ < (u.r.toNat + 1) * u.desc.width.toNat := by
        rw [Nat.succ_mul]
        exact Nat.add_lt_add_left (h.columnInRow hwidth) _
      _ ≤ u.desc.height.toNat * u.desc.width.toNat :=
        Nat.mul_le_mul_right _ (toNat_lt_of_le_of_ne h.rowInFrame hheight)
      _ = u.desc.width.toNat * u.desc.height.toNat := Nat.mul_comm _ _
  exact lt_min (toNat_lt_of_le_of_ne h.withinCapacity hcap) hframe

theorem CountersInRange.scanOver_iff {u : Run} (h : CountersInRange u) :
    scanOver u = true ↔ u.n.toNat = pixelCount u.desc := by
  refine ⟨h.index_eq_pixelCount, fun heq => ?_⟩
  by_contra hmore
  exact (h.index_lt_pixelCount (by simpa using hmore)).ne heq

theorem advanceRun_n (u : Run) : (advanceRun u).n = u.n + 1#32 := by
  unfold advanceRun
  split <;> rfl

theorem CountersInRange.toNat_advanceRun_n {u : Run} (h : CountersInRange u) (hmore : scanOver u = false) :
    (advanceRun u).n.toNat = u.n.toNat + 1 := by
  obtain ⟨hcap, -, -⟩ := (scanOver_eq_false_iff u).mp hmore
  rw [advanceRun_n, toNat_succ_of_lt (toNat_lt_of_le_of_ne h.withinCapacity hcap)]

/-! ## Every run ends -/

theorem run_succ_of_step {s t : State} (h : step s = .next t) (k : Nat) :
    Host.Core.run core (k + 1) s = Host.Core.run core k t := by
  have hcore : core.step s = .next t := h
  simp only [Host.Core.run, hcore]

/-- A busy run left to itself takes a step after which it has ended, or goes on with the next pixel. -/
theorem step_busy_ends_or_advances {s : State} (hturns : s.turns = []) (hbusy : s.status.busy = true) :
    ∃ t, step s = .next t ∧
      (t.status.busy = false ∨
       scanOver s.run = false ∧ t.turns = [] ∧ t.status.busy = true ∧ t.run = advanceRun s.run) := by
  have hstep : step s = engineTurn s := by simp [step, hturns]
  rw [hstep]
  cases hscan : scanOver s.run with
  | true => exact ⟨completeRun s, engineTurn_complete hbusy hscan, .inl rfl⟩
  | false =>
    rw [engineTurn_pixel hbusy hscan]
    obtain ⟨t, hstages, ⟨hclean, he⟩ | ⟨k, hfault, he⟩⟩ := pixelStep_cases hbusy
    · exact ⟨_, he, .inr ⟨rfl, hstages.turns.trans hturns, (congrArg Status.busy hclean).trans hbusy, rfl⟩⟩
    · exact ⟨_, he, .inl (congrArg Status.busy hfault)⟩

theorem busy_run_ends_within (j : Nat) {s : State} (hinv : Inv s) (hturns : s.turns = [])
    (hbusy : s.status.busy = true) (hj : pixelCount s.run.desc - s.run.n.toNat ≤ j) :
    ∃ k t, k ≤ j + 1 ∧ Host.Core.run core k s = .next t ∧ t.status.busy = false := by
  induction j generalizing s with
  | zero =>
    obtain ⟨t, hstep, hend | ⟨hmore, -⟩⟩ := step_busy_ends_or_advances hturns hbusy
    · exact ⟨1, t, le_rfl, run_succ_of_step hstep 0, hend⟩
    · have := (hinv.counters hbusy).index_lt_pixelCount hmore
      omega
  | succ j ih =>
    obtain ⟨t, hstep, hend | ⟨hmore, htturns, htbusy, htrun⟩⟩ := step_busy_ends_or_advances hturns hbusy
    · exact ⟨1, t, by omega, run_succ_of_step hstep 0, hend⟩
    · have hindex := (hinv.counters hbusy).toNat_advanceRun_n hmore
      obtain ⟨k, t', hk, hrun, hend⟩ := ih (stepKeepsTheInvariant s t hinv hstep) htturns htbusy (by
        rw [htrun, advanceRun_desc, hindex]
        omega)
      exact ⟨k + 1, t', by omega, (run_succ_of_step hstep k).trans hrun, hend⟩

/-- Settles O49, by induction on the number of pixels still to visit. -/
theorem busyRunEnds : Obligations.BusyRunEnds :=
  fun _ hinv hturns hbusy => busy_run_ends_within _ hinv hturns hbusy le_rfl

/-! ## A pixel whose reads go through -/

/-- The reads of the pixel that the counters name are aligned, admitted, and of bytes the run does not write. -/
structure ReadsClean (p : Platform) (u : Run) : Prop where
  sampleAligned : depthSampleAddr u.desc u.r.toNat u.c.toNat % 2 = 0
  sampleAdmitted : admitted p .read (depthSampleAddr u.desc u.r.toNat u.c.toNat) 2 = true
  colorAdmitted : u.desc.hasColor = true →
    admitted p .read (lumaAddr u.desc u.r.toNat u.c.toNat) 1 = true ∧
    admitted p .read (uAddr u.desc u.r.toNat u.c.toNat) 1 = true ∧
    admitted p .read (vAddr u.desc u.r.toNat u.c.toNat) 1 = true
  unwritten : ∀ a ∈ pixelBytes u.desc u.r.toNat u.c.toNat, runWritesByte u.desc a = false

/-- One byte that is admitted and not written by the run is read from memory. -/
theorem readThen_byte_clean {a : Nat} {use : Nat → State → State} {s : State}
    (hadmitted : admitted s.platform .read a 1 = true) (hunwritten : runWritesByte s.run.desc a = false) :
    readThen a 1 use s = use (Memory.readBytes s.mem a 1) s :=
  readThen_clean (Nat.mod_one a) hadmitted fun i hi => by
    obtain rfl : i = 0 := by omega
    exact hunwritten

theorem exec_depthFetch_clean {s : State} (h : ReadsClean s.platform s.run) :
    exec .depthFetch s = .next (s.setPx { s.px with s := sampleAt s.mem s.run.desc s.run.r.toNat s.run.c.toNat }) := by
  have hunwritten : ∀ i, i < 2 →
      runWritesByte s.run.desc (depthSampleAddr s.run.desc s.run.r.toNat s.run.c.toNat + i) = false := fun i hi => by
    apply h.unwritten
    have : i = 0 ∨ i = 1 := by omega
    rcases this with rfl | rfl <;> simp [pixelBytes]
  rw [exec, execDepthFetch, readThen_clean h.sampleAligned h.sampleAdmitted hunwritten, ofNat_readBytes_two]
  rfl

theorem exec_lumaFetch_clean {s : State} (h : ReadsClean s.platform s.run) (hcolor : s.run.desc.hasColor = true) :
    exec .lumaFetch s =
      .next (s.setPx { s.px with y8 := Memory.read s.mem (lumaAddr s.run.desc s.run.r.toNat s.run.c.toNat) }) := by
  obtain ⟨hluma, -, -⟩ := h.colorAdmitted hcolor
  rw [exec, execLumaFetch, readThen_byte_clean hluma (h.unwritten _ (by simp [pixelBytes, hcolor])),
    ofNat_readBytes_one]

theorem exec_chromaFetch_clean {s : State} (h : ReadsClean s.platform s.run) (hcolor : s.run.desc.hasColor = true) :
    exec .chromaFetch s = .next (s.setPx { s.px with
      u := Memory.read s.mem (uAddr s.run.desc s.run.r.toNat s.run.c.toNat)
      v := Memory.read s.mem (vAddr s.run.desc s.run.r.toNat s.run.c.toNat) }) := by
  obtain ⟨-, hu, hv⟩ := h.colorAdmitted hcolor
  rw [exec, execChromaFetch, readThen_byte_clean hu (h.unwritten _ (by simp [pixelBytes, hcolor])),
    readThen_byte_clean hv (h.unwritten _ (by simp [pixelBytes, hcolor])), ofNat_readBytes_one, ofNat_readBytes_one]

/-- The four words of the output entry `n` for pixel `(r, c)` and their addresses (rules R74, R75, R173 and R208). -/
def pixelEntry (x : Context) (m : List Host.Cell) (d : Descriptor) (r c n : Nat) : List (Nat × Word) :=
  [(pointAddr d n, pointX x m d r c), (pointAddr d n + 4, pointY x m d r c), (pointAddr d n + 8, depthAt x m d r c),
   (colorEntryAddr d n, colorAt m d r c)]

theorem entryOf_eq_pixelEntry (x : Context) (m : List Host.Cell) (d : Descriptor) (k : Nat) :
    entryOf x m d k = pixelEntry x m d (rowOf d k) (colOf d k) k := rfl

/-- The entry of the pixel that the counters of `s` name. -/
def nextEntry (s : State) : List (Nat × Word) :=
  pixelEntry s.ctx s.mem s.run.desc s.run.r.toNat s.run.c.toNat s.run.n.toNat

/-- EMIT ends the pixel. -/
theorem pixelStepOver_emit (s : State) :
    pixelStepOver [.emit] s = .next (finishPixel (storeWords (entryWrites s) s)) := by
  rw [pixelStepOver_cons rfl]
  simp [pixelStepOver, runStages]

/-- Of the working values only the words stored count at the end of the pixel. -/
theorem pixelStepOver_emit_setPx {s : State} {v : Pixel} {ws : List (Nat × Word)}
    (h : entryWrites (s.setPx v) = ws) : pixelStepOver [.emit] (s.setPx v) = .next (finishPixel (storeWords ws s)) := by
  rw [pixelStepOver_emit, h, storeWords_setPx, finishPixel_setPx]

/-- A stage that takes the working values from `v` to `w`, and then the rest. -/
theorem pixelStepOver_cons_setPx {i : Instr} {rest : List Instr} {s : State} {v w : Pixel}
    {o : Host.Outcome State Fault Refusal} (hbusy : s.status.busy = true)
    (h : exec i (s.setPx v) = .next (s.setPx w)) (hrest : pixelStepOver rest (s.setPx w) = o) :
    pixelStepOver (i :: rest) (s.setPx v) = o := by
  rw [pixelStepOver_cons h, State.setPx_status, if_pos hbusy, hrest]

theorem lineariseSample_sampleAt (x : Context) (m : List Host.Cell) (d : Descriptor) (r c : Nat) :
    lineariseSample (sampleAt m d r c) x.depthUnit = depthAt x m d r c := rfl

theorem backprojectAxis_column (x : Context) (m : List Host.Cell) (d : Descriptor) (r : Nat) (c : Word) :
    backprojectAxis (depthAt x m d r c.toNat) c x.ppx x.fx = pointX x m d r c.toNat := by
  simp [backprojectAxis, pointX]

theorem backprojectAxis_row (x : Context) (m : List Host.Cell) (d : Descriptor) (r : Word) (c : Nat) :
    backprojectAxis (fneg (depthAt x m d r.toNat c)) r x.ppy x.fy = pointY x m d r.toNat c := by
  simp [backprojectAxis, pointY]

theorem colorAt_color {m : List Host.Cell} {d : Descriptor} (h : d.hasColor = true) (r c : Nat) :
    colorAt m d r c =
      fusedColor (Memory.read m (lumaAddr d r c)) (Memory.read m (uAddr d r c)) (Memory.read m (vAddr d r c)) := by
  simp [colorAt, h]

theorem colorAt_plain {m : List Host.Cell} {d : Descriptor} (h : d.hasColor = false) (r c : Nat) :
    colorAt m d r c = packColor 255#8 255#8 255#8 := by
  simp [colorAt, h, packColor]

/-- Where its reads are clean a pixel step stores the pixel's entry and ends the pixel (rules R153 and R159). -/
theorem pixelStep_of_readsClean {s : State} (hbusy : s.status.busy = true) (h : ReadsClean s.platform s.run) :
    pixelStep s = .next (finishPixel (storeWords (nextEntry s) s)) := by
  have hreads (v : Pixel) : ReadsClean (s.setPx v).platform (s.setPx v).run := h
  conv_lhs => rw [← State.setPx_self s]
  unfold pixelStep
  cases hcolor : s.run.desc.hasColor with
  | true =>
    have hplane (v : Pixel) : (s.setPx v).run.desc.hasColor = true := hcolor
    rw [State.setPx_run, hcolor]
    refine pixelStepOver_cons_setPx hbusy (exec_depthFetch_clean (hreads _)) ?_
    refine pixelStepOver_cons_setPx hbusy (exec_lumaFetch_clean (hreads _) (hplane _)) ?_
    refine pixelStepOver_cons_setPx hbusy (exec_chromaFetch_clean (hreads _) (hplane _)) ?_
    refine pixelStepOver_cons_setPx hbusy rfl (pixelStepOver_cons_setPx hbusy rfl ?_)
    refine pixelStepOver_cons_setPx hbusy rfl (pixelStepOver_cons_setPx hbusy rfl (pixelStepOver_emit_setPx ?_))
    simp [entryWrites, nextEntry, pixelEntry, lineariseSample_sampleAt, backprojectAxis_column, backprojectAxis_row,
      colorAt_color hcolor, fusedColor]
  | false =>
    rw [State.setPx_run, hcolor]
    refine pixelStepOver_cons_setPx hbusy (exec_depthFetch_clean (hreads _)) ?_
    refine pixelStepOver_cons_setPx hbusy rfl (pixelStepOver_cons_setPx hbusy rfl ?_)
    refine pixelStepOver_cons_setPx hbusy rfl (pixelStepOver_cons_setPx hbusy rfl (pixelStepOver_emit_setPx ?_))
    simp [entryWrites, nextEntry, pixelEntry, lineariseSample_sampleAt, backprojectAxis_column, backprojectAxis_row,
      colorAt_plain hcolor]

/-! ## A pixel whose writes go through too -/

/-- The writes of the entry that the counters name are aligned, admitted and share no byte, and none of its bytes lies
in both output arrays. -/
structure WritesClean (p : Platform) (u : Run) : Prop where
  pointAligned : pointAddr u.desc u.n.toNat % 4 = 0
  colorAligned : colorEntryAddr u.desc u.n.toNat % 4 = 0
  xAdmitted : admitted p .write (pointAddr u.desc u.n.toNat) 4 = true
  yAdmitted : admitted p .write (pointAddr u.desc u.n.toNat + 4) 4 = true
  zAdmitted : admitted p .write (pointAddr u.desc u.n.toNat + 8) 4 = true
  colorAdmitted : admitted p .write (colorEntryAddr u.desc u.n.toNat) 4 = true
  apart : pointAddr u.desc u.n.toNat + 12 ≤ colorEntryAddr u.desc u.n.toNat ∨
    colorEntryAddr u.desc u.n.toNat + 4 ≤ pointAddr u.desc u.n.toNat
  once : ∀ a, entryByte u a → (inPointEntries u.desc a && inColorEntries u.desc a) = false

theorem entryByte_of_mem_nextEntry {s : State} {w : Nat × Word} (hw : w ∈ nextEntry s) {x : Nat} (hx : w.1 ≤ x)
    (hx' : x < w.1 + 4) : entryByte s.run x := by
  simp only [nextEntry, pixelEntry, List.mem_cons, List.not_mem_nil, or_false] at hw
  unfold entryByte
  rcases hw with rfl | rfl | rfl | rfl <;> simp only at hx hx' <;> omega

theorem WritesClean.aligned {s : State} (h : WritesClean s.platform s.run) : ∀ w ∈ nextEntry s, w.1 % 4 = 0 := by
  have hp := h.pointAligned
  have hq := h.colorAligned
  simp only [nextEntry, pixelEntry, List.forall_mem_cons, List.not_mem_nil, false_implies, implies_true, and_true]
  omega

theorem WritesClean.admitted {s : State} (h : WritesClean s.platform s.run) :
    ∀ w ∈ nextEntry s, Machine.admitted s.platform .write w.1 4 = true := by
  simp [nextEntry, pixelEntry, h.xAdmitted, h.yAdmitted, h.zAdmitted, h.colorAdmitted]

theorem WritesClean.inSpace {s : State} (h : WritesClean s.platform s.run) :
    ∀ w ∈ nextEntry s, w.1 + 4 ≤ 2 ^ 32 := fun w hw => by
  have := admitted_inSpace (h.admitted w hw) (i := 3) (by omega)
  omega

theorem WritesClean.wordsApart {s : State} (h : WritesClean s.platform s.run) :
    (nextEntry s).Pairwise WordsApart := by
  have := h.apart
  simp only [nextEntry, pixelEntry, WordsApart, List.pairwise_cons, List.forall_mem_cons, List.not_mem_nil,
    false_implies, implies_true, and_true, List.Pairwise.nil]
  omega

/-- Memory `m` is that of `s` with the entry of the next pixel stored. -/
structure EntryStored (s : State) (m : List Host.Cell) : Prop where
  wf : Memory.wf m = true
  holds : ∀ w ∈ nextEntry s, HoldsWord m w.1 w.2
  others : ∀ x, ¬entryByte s.run x → Memory.read m x = Memory.read s.mem x

theorem WritesClean.entryStored {s : State} (h : WritesClean s.platform s.run) (hwf : Memory.wf s.mem = true) :
    EntryStored s (Memory.writeWords s.mem (nextEntry s)) where
  wf := Memory.writeWords_wf hwf h.inSpace
  holds := Memory.read_writeWords_mem hwf h.inSpace h.wordsApart
  others _ hx := Memory.read_writeWords_other hwf h.inSpace fun _ hmem hin =>
    hx (entryByte_of_mem_nextEntry hmem hin.1 hin.2)

/-- What a pixel step without a fault leaves: memory `m`, the counters at the next pixel, no working value. -/
def afterPixel (s : State) (m : List Host.Cell) : State :=
  ((s.setMem m).setRun (advanceRun s.run)).setPx Pixel.clear

/-- Where no access faults, a turn of the engine inside the scan stores the pixel's entry and moves on. -/
theorem engineTurn_clean {s : State} (hbusy : s.status.busy = true) (hmore : scanOver s.run = false)
    (hwf : Memory.wf s.mem = true) (hr : ReadsClean s.platform s.run) (hw : WritesClean s.platform s.run) :
    ∃ m, EntryStored s m ∧ engineTurn s = .next (afterPixel s m) := by
  have hstore : storeWords (nextEntry s) s = s.setMem (Memory.writeWords s.mem (nextEntry s)) :=
    storeWords_clean hw.aligned hw.admitted fun w hmem i hi =>
      hw.once _ (entryByte_of_mem_nextEntry hmem (by omega) (by omega))
  refine ⟨_, hw.entryStored hwf, ?_⟩
  rw [engineTurn_pixel hbusy hmore, pixelStep_of_readsClean hbusy hr, hstore]
  simp [finishPixel, hbusy, afterPixel]

theorem advanceRun_eq (u : Run) :
    advanceRun u = { u with
      n := u.n + 1#32
      c := if u.c + 1#32 = u.desc.width then 0#32 else u.c + 1#32
      r := if u.c + 1#32 = u.desc.width then u.r + 1#32 else u.r } := by
  unfold advanceRun
  split <;> rfl

/-- Settles O41: the pixel's reads and writes are clean, so the step stores the entry and moves the counters. -/
theorem pixelStepStoresThePixelAndAdvances : Obligations.PixelStepStoresThePixelAndAdvances := by
  intro s hmoves hbusy hmore hwf d r c p q hadmitted hsample hpoint hcolor hunwritten hapart honce
  obtain ⟨hreadSample, hreadColor, hx, hy, hz, hq⟩ := hadmitted
  have hr : ReadsClean s.platform s.run := ⟨hsample, hreadSample, hreadColor, hunwritten⟩
  have hw : WritesClean s.platform s.run := ⟨hpoint, hcolor, hx, hy, hz, hq, hapart, honce⟩
  obtain ⟨m, hm, hturn⟩ := engineTurn_clean (s := s.setTurns s.turns.tail) hbusy hmore hwf hr hw
  have hholds := hm.holds
  simp only [nextEntry, pixelEntry, List.forall_mem_cons, List.not_mem_nil, false_implies, implies_true,
    and_true] at hholds
  obtain ⟨holdsX, holdsY, holdsZ, holdsColor⟩ := hholds
  refine ⟨m, ?_, holdsX, holdsY, holdsZ, holdsColor, fun a hp hq => hm.others a (not_or.mpr ⟨hp, hq⟩)⟩
  rw [← advanceRun_eq, step_engineMoves hmoves, hturn]
  rfl

/-! ## A whole run -/

/-- Inside the scan the index is that of the pixel the counters name (rule R152). -/
theorem CountersInRange.rowOf_colOf {u : Run} (h : CountersInRange u) (hmore : scanOver u = false) :
    rowOf u.desc u.n.toNat = u.r.toNat ∧ colOf u.desc u.n.toNat = u.c.toNat := by
  obtain ⟨-, hwidth, -⟩ := (scanOver_eq_false_iff u).mp hmore
  have hc := h.columnInRow hwidth
  refine (Nat.div_mod_unique (by omega)).mpr ⟨?_, hc⟩
  rw [h.index, Nat.mul_comm, Nat.add_comm]

/-- The pixel that the counters name is one of those the premises of the run speak of. -/
theorem RunPremises.readsClean {p : Platform} {u : Run} (h : RunPremises p u.desc) (hu : CountersInRange u)
    (hmore : scanOver u = false) : ReadsClean p u := by
  obtain ⟨hexist, ⟨hdepth, hstride, -, -⟩, -, hunwritten⟩ := h
  have hn := hu.index_lt_pixelCount hmore
  obtain ⟨hrow, hcol⟩ := hu.rowOf_colOf hmore
  have hadmitted := hexist u.n.toNat hn
  rw [hrow, hcol] at hadmitted
  obtain ⟨hsample, hcolor, -⟩ := hadmitted
  refine ⟨?_, hsample, hcolor, ?_⟩
  · have : u.r.toNat * u.desc.depthStride.toNat % 2 = 0 := by simp [Nat.mul_mod, hstride]
    unfold depthSampleAddr
    omega
  · simpa only [hrow, hcol] using hunwritten u.n.toNat hn

theorem RunPremises.writesClean {p : Platform} {u : Run} (h : RunPremises p u.desc) (hu : CountersInRange u)
    (hmore : scanOver u = false) : WritesClean p u := by
  obtain ⟨hexist, ⟨-, -, hpoints, hcolors⟩, hdisjoint, -⟩ := h
  have hn := hu.index_lt_pixelCount hmore
  obtain ⟨-, -, hx, hy, hz, hq⟩ := hexist u.n.toNat hn
  refine ⟨?_, ?_, hx, hy, hz, hq, ?_, fun a _ => ?_⟩
  · unfold pointAddr
    omega
  · unfold colorEntryAddr
    omega
  · unfold pointAddr colorEntryAddr
    omega
  · rw [Bool.eq_false_iff]
    simp only [inPointEntries, inColorEntries, ne_eq, Bool.and_eq_true, decide_eq_true_eq]
    omega

/-- The entry of a visited pixel lies in the two output arrays. -/
theorem runWritesByte_of_entryByte {u : Run} (hn : u.n.toNat < pixelCount u.desc) {x : Nat} (hx : entryByte u x) :
    runWritesByte u.desc x = true := by
  simp only [runWritesByte, inPointEntries, inColorEntries, Bool.or_eq_true, Bool.and_eq_true, decide_eq_true_eq]
  unfold entryByte pointAddr colorEntryAddr at hx
  omega

/-- The entry of an earlier pixel shares no byte with the one the counters name. -/
theorem not_entryByte_of_mem_entryOf {p : Platform} {u : Run} (h : RunPremises p u.desc)
    (hn : u.n.toNat < pixelCount u.desc) {x : Context} {m : List Host.Cell} {k : Nat} (hk : k < u.n.toNat)
    {e : Nat × Word} (he : e ∈ entryOf x m u.desc k) {i : Nat} (hi : i < 4) : ¬entryByte u (e.1 + i) := by
  obtain ⟨-, -, hdisjoint, -⟩ := h
  simp only [entryOf, List.mem_cons, List.not_mem_nil, or_false] at he
  unfold entryByte pointAddr colorEntryAddr
  rcases he with rfl | rfl | rfl | rfl <;> simp only [pointAddr, colorEntryAddr] <;> omega

/-- The entry of a pixel depends on no byte but the pixel's own. -/
theorem pixelEntry_congr {m m' : List Host.Cell} {d : Descriptor} {r c : Nat}
    (h : ∀ a ∈ pixelBytes d r c, Memory.read m a = Memory.read m' a) (x : Context) (n : Nat) :
    pixelEntry x m d r c n = pixelEntry x m' d r c n := by
  have hsample : sampleAt m d r c = sampleAt m' d r c := by
    simp [sampleAt, h (depthSampleAddr d r c) (by simp [pixelBytes]),
      h (depthSampleAddr d r c + 1) (by simp [pixelBytes])]
  have hcolor : colorAt m d r c = colorAt m' d r c := by
    cases hplane : d.hasColor with
    | false => rw [colorAt_plain hplane, colorAt_plain hplane]
    | true =>
      rw [colorAt_color hplane, colorAt_color hplane]
      congr 1 <;> exact h _ (by simp [pixelBytes, hplane])
  simp only [pixelEntry, pointX, pointY, depthAt, hsample, hcolor]

/-- The run launched from `s₀` has visited its first `k` pixels: their entries are stored, and nothing else has
changed. -/
structure Scanned (s₀ : State) (k : Nat) (s : State) : Prop where
  frame : s = { s₀ with
    status := statusLaunch s₀.status
    run := s.run
    mem := s.mem
    px := s.px
    turns := []
    exclusive := s.exclusive }
  snapshot : s.run.desc = s₀.desc
  counters : CountersInRange s.run
  index : s.run.n.toNat = k
  wf : Memory.wf s.mem = true
  entries : ∀ j, j < k → ∀ e ∈ entryOf s₀.ctx s₀.mem s₀.desc j, HoldsWord s.mem e.1 e.2
  others : ∀ a, runWritesByte s₀.desc a = false → Memory.read s.mem a = Memory.read s₀.mem a

/-- A change of memory, counters and working values stays in the frame of the run. -/
theorem Scanned.frame_afterPixel {s₀ s : State} {k : Nat} (h : Scanned s₀ k s) (m : List Host.Cell) :
    afterPixel s m = { s₀ with
      status := statusLaunch s₀.status
      run := advanceRun s.run
      mem := m
      px := Pixel.clear
      turns := []
      exclusive := s.exclusive } := by
  unfold afterPixel
  generalize advanceRun s.run = u
  conv_lhs => rw [h.frame]
  rfl

/-- The host's UNPROJECT write launches the run. -/
theorem step_launches {s₀ : State} (hidle : Idle s₀) (hvalid : s₀.status.valid = true)
    (hwf : Memory.wf s₀.mem = true) (hturns : s₀.turns = [commandWrite s₀.platform 2#32]) :
    ∃ s, step s₀ = .next s ∧ Scanned s₀ 0 s := by
  refine ⟨launchEffect (s₀.setTurns []), ?_, ?_⟩
  · rw [step_cons hturns]
    exact (takeTurn_commandWrite (i := .unproject) rfl (s₀.setTurns [])).trans (exec_command_idle rfl hidle)
  · rw [launchEffect_context (s := s₀.setTurns []) hvalid]
    exact ⟨rfl, rfl, countersInRange_launchedRun s₀.desc, rfl, hwf, fun j hj => absurd hj j.not_lt_zero, fun _ _ => rfl⟩

section
variable {s₀ s : State} {k : Nat}

theorem Scanned.busy (h : Scanned s₀ k s) : s.status.busy = true := by
  rw [h.frame]
  rfl

theorem Scanned.step_eq (h : Scanned s₀ k s) : step s = engineTurn s := by
  have hturns : s.turns = [] := by rw [h.frame]
  simp [step, hturns]

/-- The pixel that the counters name still has the input bytes it had before the launch. -/
theorem Scanned.nextEntry_eq (h : Scanned s₀ k s) (hprem : RunPremises s₀.platform s₀.desc)
    (hmore : scanOver s.run = false) : nextEntry s = entryOf s₀.ctx s₀.mem s₀.desc k := by
  obtain ⟨-, -, -, hunwritten⟩ := hprem
  obtain ⟨hrow, hcol⟩ := h.counters.rowOf_colOf hmore
  have hn := h.counters.index_lt_pixelCount hmore
  have hctx : s.ctx = s₀.ctx := by rw [h.frame]
  rw [h.index, h.snapshot] at hrow hcol hn
  rw [nextEntry, entryOf_eq_pixelEntry, h.index, h.snapshot, ← hrow, ← hcol, hctx]
  exact pixelEntry_congr (fun a ha => h.others a (hunwritten k hn a ha)) _ _

/-- Before the last pixel the system visits the next one. -/
theorem Scanned.step_pixel (h : Scanned s₀ k s) (hprem : RunPremises s₀.platform s₀.desc)
    (hk : k < pixelCount s₀.desc) : ∃ t, step s = .next t ∧ Scanned s₀ (k + 1) t := by
  have hplatform : s.platform = s₀.platform := by rw [h.frame]
  have hprem' : RunPremises s.platform s.run.desc := by rwa [h.snapshot, hplatform]
  have hn : s.run.n.toNat < pixelCount s.run.desc := by rwa [h.index, h.snapshot]
  have hmore : scanOver s.run = false := by
    rw [Bool.eq_false_iff, ne_eq, h.counters.scanOver_iff]
    exact hn.ne
  have hr := hprem'.readsClean h.counters hmore
  have hw := hprem'.writesClean h.counters hmore
  obtain ⟨m, hm, hturn⟩ := engineTurn_clean h.busy hmore h.wf hr hw
  refine ⟨afterPixel s m, h.step_eq.trans hturn, {
    frame := h.frame_afterPixel m
    snapshot := (advanceRun_desc s.run).trans h.snapshot
    counters := h.counters.advance hmore
    index := (h.counters.toNat_advanceRun_n hmore).trans (congrArg (· + 1) h.index)
    wf := hm.wf
    entries := fun j hj e he => ?_
    others := fun a ha => ?_ }⟩
  · rcases Nat.lt_succ_iff_lt_or_eq.mp hj with hlt | rfl
    · intro i hi
      have hout : ¬entryByte s.run (e.1 + i) :=
        not_entryByte_of_mem_entryOf hprem' hn (h.index.symm ▸ hlt) (h.snapshot.symm ▸ he) hi
      exact (hm.others _ hout).trans (h.entries j hlt e he i hi)
    · exact hm.holds e (h.nextEntry_eq hprem hmore ▸ he)
  · have hout : ¬entryByte s.run a := fun hin => by
      have hwritten := runWritesByte_of_entryByte hn hin
      rw [h.snapshot, ha] at hwritten
      cases hwritten
    exact (hm.others a hout).trans (h.others a ha)

/-- After the last pixel the system completes the run. -/
theorem Scanned.step_completes (h : Scanned s₀ (pixelCount s₀.desc) s) : step s = .next (completeRun s) := by
  rw [h.step_eq, engineTurn_complete h.busy]
  rw [h.counters.scanOver_iff, h.index, h.snapshot]

theorem Scanned.run_completes (h : Scanned s₀ k s) (hprem : RunPremises s₀.platform s₀.desc) {i : Nat}
    (hi : k + i = pixelCount s₀.desc) :
    ∃ t, Scanned s₀ (pixelCount s₀.desc) t ∧ Host.Core.run core (i + 1) s = .next (completeRun t) := by
  induction i generalizing k s with
  | zero =>
    obtain rfl : k = pixelCount s₀.desc := hi
    exact ⟨s, h, run_succ_of_step h.step_completes 0⟩
  | succ i ih =>
    obtain ⟨t, hstep, ht⟩ := h.step_pixel hprem (by omega)
    rw [run_succ_of_step hstep]
    exact ih ht (by omega)

end

/-- Settles O48: the launch, the pixels one by one, and the completion. -/
theorem runComputesTheWholeFrame : Obligations.RunComputesTheWholeFrame := by
  intro s₀ hidle hvalid hwf hturns hprem
  obtain ⟨s, hstep, hs⟩ := step_launches hidle hvalid hwf hturns
  obtain ⟨t, ht, hrun⟩ := hs.run_completes hprem (Nat.zero_add _)
  have hused : t.run.n = BitVec.ofNat 32 (pixelCount s₀.desc) := by rw [← ht.index]; simp
  refine ⟨completeRun t, (run_succ_of_step hstep _).trans hrun, ?_, hused, ?_, ?_, ?_, ?_, ?_, ht.entries, ht.others⟩
  all_goals
    rw [ht.frame]
    rfl

end Sys2Proof.Safety
end

section
/-! PROOFS. Which bytes of memory a pixel step depends on (41_unproject_scan.md rule R163, 20_memory.md rule R80): two
systems that differ only in memory are followed side by side. The reads of a pixel give the same where the two agree on
the pixel's input bytes, and every byte written is written alike. -/

namespace Sys2Proof.Safety

open Sys2Proof.Machine

/-! ## Reading -/

/-- A read gives the same in memory `m` where the bytes read are the same. -/
theorem fetchBytes_setMem {n a : Nat} {s : State} {m : List Host.Cell}
    (h : ∀ i, i < n → Memory.read m (a + i) = Memory.read s.mem (a + i)) :
    fetchBytes n a (s.setMem m) = ((fetchBytes n a s).1, (fetchBytes n a s).2.setMem m) := by
  induction n generalizing a s with
  | zero => rfl
  | succ n ih =>
    obtain ⟨f, hf⟩ := fetchByte_state a s
    have hbyte : fetchByte a (s.setMem m) = ((fetchByte a s).1, (fetchByte a s).2.setMem m) := by
      have h0 := h 0 n.succ_pos
      cases hrun : runWritesByte s.run.desc a with
      | true =>
        simp only [fetchByte, State.setMem_run, hrun]
        rfl
      | false =>
        rw [fetchByte_clean hrun, fetchByte_clean (s := s.setMem m) hrun]
        exact congrArg (·, s.setMem m) h0
    have hrest := ih (a := a + 1) (s := (fetchByte a s).2) fun i hi => by
      rw [hf, show a + 1 + i = a + (i + 1) by omega]
      exact h (i + 1) (by omega)
    simp [fetchBytes, hbyte, hrest]

theorem readThen_setMem {a n : Nat} {use : Nat → State → State} {s : State} {m : List Host.Cell}
    (h : ∀ i, i < n → Memory.read m (a + i) = Memory.read s.mem (a + i))
    (huse : ∀ v f, use v ((s.setFree f).setMem m) = (use v (s.setFree f)).setMem m) :
    readThen a n use (s.setMem m) = (readThen a n use s).setMem m := by
  obtain ⟨f, hf⟩ := fetchBytes_state n a s
  simp only [readThen, engineRead_eq, State.setMem_platform]
  cases accessFaultOf s.platform ⟨.read, a, n⟩ with
  | some k => rfl
  | none =>
    simp only [fetchBytes_setMem h, hf]
    exact huse _ f

/-- The bytes that a stage reads of the pixel that the counters name (rules R171, R203 and R204). -/
def stageReads (u : Run) : Instr → List Nat
  | .depthFetch => [depthSampleAddr u.desc u.r.toNat u.c.toNat, depthSampleAddr u.desc u.r.toNat u.c.toNat + 1]
  | .lumaFetch => [lumaAddr u.desc u.r.toNat u.c.toNat]
  | .chromaFetch => [uAddr u.desc u.r.toNat u.c.toNat, vAddr u.desc u.r.toNat u.c.toNat]
  | _ => []

/-- A stage that stores nothing does the same in memory `m` where the bytes it reads are the same. -/
theorem exec_setMem {i : Instr} (hi : i.isCommand = false) (hemit : i ≠ .emit) {s : State} {m : List Host.Cell}
    (h : ∀ a ∈ stageReads s.run i, Memory.read m a = Memory.read s.mem a) :
    ∃ t, exec i s = .next t ∧ exec i (s.setMem m) = .next (t.setMem m) := by
  have hone {a : Nat} (ha : Memory.read m a = Memory.read s.mem a) :
      ∀ i, i < 1 → Memory.read m (a + i) = Memory.read s.mem (a + i) := fun i hi => by
    obtain rfl : i = 0 := by omega
    exact ha
  cases i with
  | nop | create | unproject | destroy => cases hi
  | emit => exact absurd rfl hemit
  | depthFetch =>
    simp only [stageReads, List.forall_mem_cons] at h
    obtain ⟨hlow, hhigh, -⟩ := h
    refine ⟨_, rfl, congrArg _ (readThen_setMem (fun i hi => ?_) fun _ _ => rfl)⟩
    have : i = 0 ∨ i = 1 := by omega
    rcases this with rfl | rfl
    · exact hlow
    · exact hhigh
  | lumaFetch =>
    simp only [stageReads, List.forall_mem_cons] at h
    exact ⟨_, rfl, congrArg _ (readThen_setMem (hone h.1) fun _ _ => rfl)⟩
  | chromaFetch =>
    simp only [stageReads, List.forall_mem_cons] at h
    obtain ⟨hu, hv, -⟩ := h
    refine ⟨_, rfl, congrArg _ (readThen_setMem (hone hu) fun _ f => ?_)⟩
    exact readThen_setMem (s := s.setFree f) (hone hv) fun _ _ => rfl
  | linearise | backproject | colorDefault | yuv2rgb | packRgba => exact ⟨_, rfl, rfl⟩

/-- The stages of a pixel read no byte but the pixel's own. -/
theorem stageReads_subset {u : Run} {i : Instr} (hi : i ∈ pixelStages u.desc.hasColor) :
    stageReads u i ⊆ pixelBytes u.desc u.r.toNat u.c.toNat := by
  cases i with
  | depthFetch => exact fun a ha => List.mem_append_left _ ha
  | lumaFetch | chromaFetch =>
    cases hcolor : u.desc.hasColor with
    | false => simp [pixelStages, hcolor] at hi
    | true => simp [stageReads, pixelBytes, hcolor]
  | _ => exact List.nil_subset _

/-! ## Writing -/

/-- Two systems that differ only in memory, both memories canonical, and read the same at the bytes `agreed`. -/
structure MemTwins (agreed : Nat → Prop) (s u : State) : Prop where
  frame : u = s.setMem u.mem
  wf : Memory.wf s.mem = true
  wf' : Memory.wf u.mem = true
  reads : ∀ a, agreed a → Memory.read u.mem a = Memory.read s.mem a

/-- The engine writes one byte whatever memory holds: the one given, or a free value. -/
theorem putByte_eq_write (a : Nat) (b : Byte) (s : State) :
    ∃ x f, ∀ m, putByte a b (s.setMem m) = (s.setMem (Memory.write m a x)).setFree f := by
  cases hboth : inPointEntries s.run.desc a && inColorEntries s.run.desc a with
  | false => exact ⟨b, s.free, fun m => putByte_clean (s := s.setMem m) hboth⟩
  | true =>
    refine ⟨Config.freeByte s.free, s.free + 1, fun m => ?_⟩
    simp only [putByte, State.setMem_run, hboth]
    rfl

section
variable {agreed : Nat → Prop} {s u : State}

theorem MemTwins.mono {agreed' : Nat → Prop} (h : MemTwins agreed s u) (hle : ∀ a, agreed' a → agreed a) :
    MemTwins agreed' s u :=
  ⟨h.frame, h.wf, h.wf', fun a ha => h.reads a (hle a ha)⟩

/-- A change that neither reads nor writes memory keeps twins. -/
theorem MemTwins.map {f : State → State} (h : MemTwins agreed s u) (hf : ∀ s m, f (s.setMem m) = (f s).setMem m) :
    MemTwins agreed (f s) (f u) := by
  have hmem (s : State) : (f s).mem = s.mem := by
    have := congrArg State.mem (hf s s.mem)
    rwa [State.setMem_self, State.setMem_mem] at this
  refine ⟨?_, by rw [hmem]; exact h.wf, by rw [hmem]; exact h.wf', by rw [hmem, hmem]; exact h.reads⟩
  rw [hmem, ← hf, ← h.frame]

theorem MemTwins.putByte {a : Nat} (h : MemTwins agreed s u) (ha : a < 2 ^ 32) (b : Byte) :
    MemTwins (fun x => agreed x ∨ x = a) (Machine.putByte a b s) (Machine.putByte a b u) := by
  obtain ⟨x, f, hput⟩ := putByte_eq_write a b s
  have hs := hput s.mem
  have hu := hput u.mem
  rw [State.setMem_self] at hs
  rw [← h.frame] at hu
  rw [hs, hu]
  refine ⟨rfl, Memory.write_wf h.wf ha, Memory.write_wf h.wf' ha, fun y hy => ?_⟩
  show Memory.read (Memory.write u.mem a x) y = Memory.read (Memory.write s.mem a x) y
  by_cases hya : y = a
  · rw [hya, Memory.read_write_same h.wf', Memory.read_write_same h.wf]
  · rw [Memory.read_write_other h.wf' hya, Memory.read_write_other h.wf hya]
    exact h.reads y (hy.resolve_right hya)

theorem MemTwins.putWord {a : Nat} (h : MemTwins agreed s u) (ha : a + 3 < 2 ^ 32) (v : Word) :
    MemTwins (fun x => agreed x ∨ (a ≤ x ∧ x < a + 4)) (Machine.putWord a v s) (Machine.putWord a v u) := by
  refine ((((h.putByte (show a < 2 ^ 32 by omega) _).putByte (show a + 1 < 2 ^ 32 by omega) _).putByte
    (show a + 2 < 2 ^ 32 by omega) _).putByte ha _).mono fun x hx => ?_
  rcases hx with hx | hx
  · exact .inl (.inl (.inl (.inl hx)))
  · have : x = a ∨ x = a + 1 ∨ x = a + 2 ∨ x = a + 3 := by omega
    tauto

end

theorem admitted_of_accessFaultOf_none {p : Platform} {x : Access} (h : accessFaultOf p x = none) :
    admitted p x.kind x.address x.bytes = true := by
  unfold accessFaultOf at h
  split_ifs at h with _ hadmitted
  exact hadmitted

/-- The engine stores words alike in both memories; where no fault stops it, the two agree on the words stored. -/
theorem MemTwins.storeWords (ws : List (Nat × Word)) {agreed : Nat → Prop} {s u : State} (h : MemTwins agreed s u) :
    MemTwins (fun x => agreed x ∨ ((Machine.storeWords ws s).status.busy = true ∧ storedByte ws x))
      (Machine.storeWords ws s) (Machine.storeWords ws u) := by
  induction ws generalizing agreed s u with
  | nil => exact h.mono fun x hx => hx.resolve_right (by simp [storedByte])
  | cons w rest ih =>
    obtain ⟨a, v⟩ := w
    have hplatform : u.platform = s.platform := by rw [h.frame]; rfl
    simp only [Machine.storeWords, engineWrite_eq, hplatform]
    cases hfault : accessFaultOf s.platform ⟨.write, a, 4⟩ with
    | some k => exact (h.map (f := raise k) fun _ _ => rfl).mono fun x hx => hx.resolve_right (by simp)
    | none =>
      have hadmitted : admitted s.platform .write a 4 = true := admitted_of_accessFaultOf_none hfault
      refine (ih (h.putWord (admitted_inSpace hadmitted (i := 3) (by omega)) v)).mono fun x hx => ?_
      rcases hx with hx | ⟨hbusy, w, hw, hin⟩
      · exact .inl (.inl hx)
      · rcases List.mem_cons.mp hw with rfl | hw
        · exact .inl (.inr hin)
        · exact .inr ⟨hbusy, w, hw, hin⟩

theorem storedByte_entryWrites_of_entryByte {s : State} {x : Nat} (h : entryByte s.run x) :
    storedByte (entryWrites s) x := by
  unfold entryByte at h
  simp only [storedByte, entryWrites, List.mem_cons, List.not_mem_nil, or_false, exists_eq_or_imp, exists_eq_left]
  omega

/-! ## The pixel step -/

/-- The bytes on which twins agree after a pixel of run `r` that leaves `t`: those before, and the entry, unless a fault
has stopped the pixel. -/
def AgreedAfter (agreed : Nat → Prop) (r : Run) (t : State) (x : Nat) : Prop :=
  agreed x ∨ (t.status.busy = true ∧ entryByte r x)

theorem MemTwins.finishPixel {agreed : Nat → Prop} {s u : State} (h : MemTwins agreed s u) :
    MemTwins agreed (finishPixel s) (finishPixel u) :=
  h.map fun s m => by
    cases hbusy : s.status.busy <;> simp only [Machine.finishPixel, State.setMem_status, hbusy] <;> rfl

theorem finishPixel_status (s : State) : (finishPixel s).status = s.status := by
  unfold finishPixel
  split <;> rfl

theorem MemTwins.pixelStepOver_emit {agreed : Nat → Prop} {s u : State} (h : MemTwins agreed s u) :
    ∃ t w, pixelStepOver [.emit] s = .next t ∧ pixelStepOver [.emit] u = .next w ∧
      MemTwins (AgreedAfter agreed s.run t) t w := by
  have hwrites : entryWrites u = entryWrites s := by rw [h.frame]; rfl
  refine ⟨_, _, Safety.pixelStepOver_emit s, Safety.pixelStepOver_emit u, ?_⟩
  rw [hwrites]
  refine (h.storeWords (entryWrites s)).finishPixel.mono fun x hx => ?_
  rw [AgreedAfter, finishPixel_status] at hx
  exact hx.imp_right fun ⟨hbusy, hin⟩ => ⟨hbusy, storedByte_entryWrites_of_entryByte hin⟩

theorem MemTwins.pixelStepOver {agreed : Nat → Prop} {r : Run} {stages : List Instr}
    (hstages : ∀ i ∈ stages, i.isCommand = false ∧ i ≠ .emit ∧ ∀ a ∈ stageReads r i, agreed a) {s u : State}
    (h : MemTwins agreed s u) (hr : s.run = r) :
    ∃ t w, pixelStepOver (stages ++ [.emit]) s = .next t ∧ pixelStepOver (stages ++ [.emit]) u = .next w ∧
      MemTwins (AgreedAfter agreed r t) t w := by
  induction stages generalizing s u with
  | nil => exact hr ▸ h.pixelStepOver_emit
  | cons i rest ih =>
    rw [List.forall_mem_cons] at hstages
    obtain ⟨⟨hi, hemit, hreads⟩, hrest⟩ := hstages
    obtain ⟨t, hs, hu⟩ := exec_setMem hi hemit (m := u.mem) fun a ha => h.reads a (hreads a (hr ▸ ha))
    rw [← h.frame] at hu
    have htframe := (exec_storeFree hi hemit hs).frame.1
    have htmem : t.mem = s.mem := by rw [htframe]
    have htrun : t.run = r := by rw [htframe, ← hr]
    have ht : MemTwins agreed t (t.setMem u.mem) := ⟨rfl, htmem ▸ h.wf, h.wf', htmem ▸ h.reads⟩
    rw [List.cons_append, pixelStepOver_cons hs, pixelStepOver_cons hu, State.setMem_status]
    by_cases hbusy : t.status.busy = true
    · rw [if_pos hbusy, if_pos hbusy]
      exact ih hrest ht htrun
    · rw [if_neg hbusy, if_neg hbusy]
      refine ⟨_, _, rfl, rfl, ht.finishPixel.mono fun x hx => hx.resolve_right fun hin => ?_⟩
      rw [finishPixel_status] at hin
      exact hbusy hin.1

/-- The last stage of a pixel, and the only one that stores, is EMIT. -/
theorem pixelStages_eq_append_emit (hasColor : Bool) :
    pixelStages hasColor = (pixelStages hasColor).dropLast ++ [.emit] := by
  cases hasColor <;> rfl

theorem ne_emit_of_mem_dropLast (hasColor : Bool) : ∀ i ∈ (pixelStages hasColor).dropLast, i ≠ .emit := by
  cases hasColor <;> decide

theorem MemTwins.pixelStep {agreed : Nat → Prop} {s u : State} (h : MemTwins agreed s u)
    (hinput : ∀ a ∈ pixelBytes s.run.desc s.run.r.toNat s.run.c.toNat, agreed a) :
    ∃ t w, pixelStep s = .next t ∧ pixelStep u = .next w ∧ MemTwins (AgreedAfter agreed s.run t) t w := by
  have hrun : u.run = s.run := by rw [h.frame]; rfl
  simp only [Machine.pixelStep, hrun]
  rw [pixelStages_eq_append_emit]
  refine MemTwins.pixelStepOver (fun i hi => ?_) h rfl
  have hmem := List.dropLast_subset _ hi
  exact ⟨pixelStages_isStage _ i hmem, ne_emit_of_mem_dropLast _ i hi, fun a ha =>
    hinput a (stageReads_subset hmem ha)⟩

theorem step_eq_pixelStep {s : State} (hmoves : EngineMoves s) (hbusy : s.status.busy = true)
    (hmore : scanOver s.run = false) : step s = pixelStep (s.setTurns s.turns.tail) := by
  rw [step_engineMoves hmoves]
  exact engineTurn_pixel hbusy hmore

/-- Settles O45: the two systems are twins that agree where their memories read the same. -/
theorem pixelStepReadsOnlyItsInputBytes : Obligations.PixelStepReadsOnlyItsInputBytes := by
  intro s m hmoves hbusy hmore hwf hwf' hinput
  have htwins : MemTwins (fun a => Memory.read m a = Memory.read s.mem a) (s.setTurns s.turns.tail)
      ((s.setMem m).setTurns s.turns.tail) := ⟨rfl, hwf, hwf', fun _ ha => ha⟩
  obtain ⟨t, u, ht, hu, htu⟩ := htwins.pixelStep hinput
  exact ⟨t, u, (step_eq_pixelStep hmoves hbusy hmore).trans ht,
    (step_eq_pixelStep (s := s.setMem m) hmoves hbusy hmore).trans hu, htu.frame, fun a ha => htu.reads a (.inl ha),
    fun hb a ha => htu.reads a (.inr ⟨hb, ha⟩)⟩

end Sys2Proof.Safety
end

section
/-! PROOFS. The depth and the back-projection (42_depth_backprojection.md): what the stages DEPTH_FETCH, LINEARISE and
BACKPROJECT answer (rules R171 to R173), and the arithmetic of the axes: signs (rules R174 and R177) and divisions by a
zero and by one (rules R176 and R182). -/

namespace Sys2Proof.Machine

/-! ## Patterns by sign and magnitude -/

/-- A pattern is its sign and its exponent-and-fraction bits. -/
theorem eq_of_signBit_of_magnitudeBits {x y : Word} (hsign : signBit x = signBit y)
    (hmag : magnitudeBits x = magnitudeBits y) : x = y := by
  simp only [signBit_eq_decide, decide_eq_decide] at hsign
  simp only [magnitudeBits] at hmag
  exact BitVec.eq_of_toNat_eq (by omega)

theorem withSign_signBit_magnitudeBits (x : Word) : withSign (signBit x) (magnitudeBits x) = x := by
  have hlt : magnitudeBits x < 2 ^ 31 := Nat.mod_lt _ (by decide)
  exact eq_of_signBit_of_magnitudeBits (signBit_withSign hlt _) (magnitudeBits_withSign hlt _)

theorem fneg_withSign {bits : Nat} (h : bits < 2 ^ 31) (sign : Bool) :
    fneg (withSign sign bits) = withSign (!sign) bits :=
  eq_of_signBit_of_magnitudeBits (by rw [signBit_fneg, signBit_withSign h, signBit_withSign h])
    (by rw [magnitudeBits_fneg, magnitudeBits_withSign h, magnitudeBits_withSign h])

@[simp] theorem fneg_infinity (sign : Bool) : fneg (infinity sign) = infinity (!sign) := fneg_withSign (by decide) sign

@[simp] theorem fneg_zero (sign : Bool) : fneg (zero sign) = zero (!sign) := fneg_withSign (by decide) sign

@[simp] theorem fneg_roundQuotient (sign : Bool) (num den : Nat) :
    fneg (roundQuotient sign num den) = roundQuotient (!sign) num den := fneg_withSign (roundBits_lt num den) sign

/-! ## Negation (rule R174) -/

@[simp] theorem exponentField_fneg (x : Word) : exponentField (fneg x) = exponentField x := by
  rw [exponentField, magnitudeBits_fneg, exponentField]

@[simp] theorem fractionField_fneg (x : Word) : fractionField (fneg x) = fractionField x := by
  rw [fractionField, magnitudeBits_fneg, fractionField]

@[simp] theorem isNaN_fneg (x : Word) : isNaN (fneg x) = isNaN x := by simp [isNaN]

@[simp] theorem isInf_fneg (x : Word) : isInf (fneg x) = isInf x := by simp [isInf]

@[simp] theorem isZero_fneg (x : Word) : isZero (fneg x) = isZero x := by simp [isZero]

@[simp] theorem finiteMagnitude_fneg (x : Word) : finiteMagnitude (fneg x) = finiteMagnitude x := by
  simp [finiteMagnitude]

/-- The class of a product and its magnitude come from the factors' magnitudes alone, so negating a factor negates the
product. The branches that answer a NaN, whose pattern is free, contradict the hypothesis. -/
theorem fmul_fneg_left {a b : Word} (h : isNaN (fmul a b) = false) : fmul (fneg a) b = fneg (fmul a b) := by
  simp only [fmul, isNaN_fneg, isInf_fneg, isZero_fneg, finiteMagnitude_fneg, signBit_fneg, Bool.not_xor] at h ⊢
  split_ifs at h ⊢
  · simp at h
  · simp at h
  · exact (fneg_infinity _).symm
  · simp at h
  · exact (fneg_infinity _).symm
  · exact (fneg_roundQuotient ..).symm

/-- Negating the dividend negates the quotient. -/
theorem fdiv_fneg_left {a b : Word} (h : isNaN (fdiv a b) = false) : fdiv (fneg a) b = fneg (fdiv a b) := by
  simp only [fdiv, isNaN_fneg, isInf_fneg, isZero_fneg, finiteMagnitude_fneg, signBit_fneg, Bool.not_xor] at h ⊢
  split_ifs at h ⊢
  · simp at h
  · simp at h
  · exact (fneg_infinity _).symm
  · exact (fneg_zero _).symm
  · simp at h
  · exact (fneg_infinity _).symm
  · exact (fneg_roundQuotient ..).symm

/-- Settles O57: the negation passes from the depth to the product and from the product to the quotient; at `d = +0` the
difference `0 - d` is `+0` and the negation `-0`. -/
theorem negationMayBeMovedThroughTheAxis : Obligations.NegationMayBeMovedThroughTheAxis := by
  refine ⟨fun d t f hproduct hquotient => ⟨?_, fdiv_fneg_left hquotient⟩, by decide⟩
  rw [fmul_fneg_left hproduct]

/-! ## Zero operands (rules R176 and R177) -/

theorem finite_or_isInf_of_not_isNaN {x : Word} (h : isNaN x = false) : exponentField x < 255 ∨ isInf x = true := by
  have hle : exponentField x ≤ 255 := by simp only [exponentField, magnitudeBits]; omega
  refine hle.lt_or_eq.imp_right fun heq => ?_
  simp_all [isNaN, isInf]

theorem finiteMagnitude_eq_zero_of_isZero {x : Word} (h : isZero x = true) : finiteMagnitude x = 0 := by
  have hm : magnitudeBits x = 0 := by simpa [isZero] using h
  rw [finiteMagnitude_eq_bitsValue, hm]
  rfl

theorem roundQuotient_zero (sign : Bool) (den : Nat) : roundQuotient sign 0 den = zero sign := by
  rw [roundQuotient, roundBits_zero, zero]

theorem fdiv_finite_zero {a b : Word} (ha : exponentField a < 255) (hne : isZero a = false) (hb : isZero b = true) :
    fdiv a b = infinity (signBit a ^^ signBit b) := by
  simp [fdiv, isNaN_eq_false_of_finite, isInf_eq_false_of_finite, exponentField_lt_of_isZero, ha, hne, hb]

/-- Settles O58, one lemma for each class of dividends. -/
theorem zeroFocalLengthGivesInfinityOrNaN : Obligations.ZeroFocalLengthGivesInfinityOrNaN := by
  refine fun t f hf => ⟨fun hfin hne => fdiv_finite_zero hfin hne hf, ?_⟩
  rintro (hzero | hnan)
  · exact fdiv_zero_zero hzero hf
  · exact fdiv_nan (.inl hnan)

theorem fmul_zero_finite {a b : Word} (ha : isZero a = true) (hb : exponentField b < 255) :
    fmul a b = zero (signBit a ^^ signBit b) := by
  rw [fmul_finite (exponentField_lt_of_isZero ha) hb, finiteMagnitude_eq_zero_of_isZero ha, Nat.zero_mul,
    roundQuotient_zero]

theorem fdiv_zero_nonzero {a b : Word} (ha : isZero a = true) (hnan : isNaN b = false) (hne : isZero b = false) :
    fdiv a b = zero (signBit a ^^ signBit b) := by
  have hfin := exponentField_lt_of_isZero ha
  rcases finite_or_isInf_of_not_isNaN hnan with hb | hinf
  · rw [fdiv_finite hfin hb hne, finiteMagnitude_eq_zero_of_isZero ha, Nat.zero_mul, roundQuotient_zero]
  · rw [fdiv_finite_inf hinf hfin, Bool.xor_comm]

@[simp] theorem isZero_zero (sign : Bool) : isZero (zero sign) = true := by
  simp [isZero]

/-- A zero depth gives a zero coordinate, whose sign is the exclusive-or of the three signs. -/
theorem backprojectAxis_zero_depth {depth pixel principal focal : Word} (hdepth : isZero depth = true)
    (hoffset : exponentField (fsub (i2f pixel) principal) < 255) (hnan : isNaN focal = false)
    (hne : isZero focal = false) :
    backprojectAxis depth pixel principal focal =
      zero ((signBit depth ^^ signBit (fsub (i2f pixel) principal)) ^^ signBit focal) := by
  rw [backprojectAxis, fmul_zero_finite hdepth hoffset, fdiv_zero_nonzero (isZero_zero _) hnan hne, signBit_zero]

theorem i2f_zero : i2f 0#32 = 0#32 := by decide

/-- Settles O59: the depth is the product of `+0` and a positive finite unit, and the two axes start from `+0` and
`-0`. -/
theorem zeroDepthGivesSignedZeros : Obligations.ZeroDepthGivesSignedZeros := by
  intro unit pixel principal focal hsign hunit hoffset hnan hne
  refine ⟨?_, ?_, ?_⟩
  · rw [lineariseSample, BitVec.setWidth_zero, i2f_zero, fmul_zero_finite (by decide) hunit, hsign]
    decide
  · simp [backprojectAxis_zero_depth (depth := 0#32) (by decide) hoffset hnan hne, show signBit 0#32 = false by decide]
  · simp [backprojectAxis_zero_depth (depth := fneg 0#32) (by decide) hoffset hnan hne,
      show signBit (fneg 0#32) = true by decide]

/-! ## Division by one (rule R182) -/

/-- Rounding a quotient that is the value of finite bits gives these bits. -/
theorem roundBits_of_bitsValue {x den : Nat} (hx : x < infinityBits) (hden : 0 < den) :
    roundBits (bitsValue x * den) den = x := by
  have hvalue := (unboundedBits_rounded (bitsValue x * den) hden).value_eq_of_representable rfl
  have hbits := bitsValue_strictMono.injective (Nat.eq_of_mul_eq_mul_right hden hvalue)
  rw [roundBits_eq_min, hbits, min_eq_left hx.le]

theorem magnitudeBits_of_isInf {x : Word} (h : isInf x = true) : magnitudeBits x = infinityBits := by
  obtain ⟨hexponent, hfraction⟩ : exponentField x = 255 ∧ fractionField x = 0 := by simpa [isInf] using h
  unfold exponentField at hexponent
  unfold fractionField at hfraction
  unfold infinityBits
  omega

theorem infinity_signBit_of_isInf {x : Word} (h : isInf x = true) : infinity (signBit x) = x := by
  rw [infinity, ← magnitudeBits_of_isInf h, withSign_signBit_magnitudeBits]

/-- 1.0 is `2^149` units. -/
theorem finiteMagnitude_one : finiteMagnitude 0x3F800000#32 = 2 ^ 149 := by decide +kernel

/-- Settles O60: a finite dividend is the value of its own bits, which rounding keeps, and an infinite one stays. -/
theorem divisionByOneIsExact : Obligations.DivisionByOneIsExact := by
  intro x hnan
  have hone : exponentField 0x3F800000#32 < 255 := by decide
  have hsign : (signBit x ^^ signBit 0x3F800000#32) = signBit x := by
    rw [show signBit 0x3F800000#32 = false by decide, Bool.xor_false]
  rcases finite_or_isInf_of_not_isNaN hnan with hfin | hinf
  · rw [fdiv_finite hfin hone (by decide), hsign, finiteMagnitude_one, finiteMagnitude_eq_bitsValue, roundQuotient,
      roundBits_of_bitsValue ((exponentField_lt_iff x).mp hfin) (by decide), withSign_signBit_magnitudeBits]
  · rw [fdiv_inf_finite hinf hone, hsign, infinity_signBit_of_isInf hinf]

/-! ## The stages (rules R171 to R173) -/

/-- A read that is aligned and admitted goes on, whether or not the run writes its bytes. -/
theorem readThen_admitted {a n : Nat} {use : Nat → State → State} {s : State} (hal : a % n = 0)
    (had : admitted s.platform .read a n = true) : ∃ v f, readThen a n use s = use v (s.setFree f) := by
  obtain ⟨f, hf⟩ := fetchBytes_state n a s
  exact ⟨(fetchBytes n a s).1, f, by simp [readThen, engineRead, hal, had, ← hf]⟩

/-- A sample whose two bytes the run does not write is read from memory. -/
theorem exec_depthFetch_unwritten {s : State} {a : Nat}
    (ha : depthSampleAddr s.run.desc s.run.r.toNat s.run.c.toNat = a) (heven : a % 2 = 0)
    (hadmitted : admitted s.platform .read a 2 = true) (hlow : runWritesByte s.run.desc a = false)
    (hhigh : runWritesByte s.run.desc (a + 1) = false) :
    exec .depthFetch s = .next (s.setPx { s.px with s := Memory.read s.mem (a + 1) ++ Memory.read s.mem a }) := by
  have hunwritten : ∀ i, i < 2 → runWritesByte s.run.desc (a + i) = false
    | 0, _ => hlow
    | 1, _ => hhigh
  rw [exec, execDepthFetch, ha, readThen_clean heven hadmitted hunwritten, ofNat_readBytes_two]

/-- Settles O24: the address is `depthSampleAddr`, and the clauses are what a read of two bytes can do. -/
theorem depthFetchReadsTheSample : Obligations.DepthFetchReadsTheSample := by
  intro s a
  refine ⟨fun hodd => congrArg _ (readThen_misaligned (a := a) ?_),
    fun heven habsent => congrArg _ (readThen_absent heven habsent),
    fun heven hadmitted => ⟨exec_depthFetch_unwritten rfl heven hadmitted, ?_⟩⟩
  · omega
  · obtain ⟨v, f, hread⟩ := readThen_admitted heven hadmitted
    exact ⟨BitVec.ofNat 16 v, f, congrArg _ hread⟩

/-- Settles O25: LINEARISE computes by `lineariseSample`. -/
theorem lineariseScalesTheSample : Obligations.LineariseScalesTheSample := by
  intro s
  rw [BitVec.ofNat_toNat]
  rfl

/-- Settles O26: BACKPROJECT computes each axis by `backprojectAxis`. -/
theorem backprojectComputesThePoint : Obligations.BackprojectComputesThePoint := fun _ => rfl

end Sys2Proof.Machine
end

section
/-! PROOFS. The colour stages (43_color_fusion.md): the clip, the shift and the packed word (rules R206 to R208), the
fetches (rules R203 to R205), and the two constants (rules R201 and R209). -/

open Sys2Proof.Safety

namespace Sys2Proof.Machine

/-! ## The clip and the shift (rules R16, R206 and R207) -/

theorem toNat_clip (n : Int) : ((clip n).toNat : Int) = max 0 (min 255 n) := by
  unfold clip
  split
  case isTrue hneg => simp only [BitVec.toNat_ofNat]; omega
  case isFalse hnonneg =>
    split
    case isTrue hbig => simp only [BitVec.toNat_ofNat]; omega
    case isFalse hsmall => rw [BitVec.toNat_ofNat]; omega

/-- `clip` does not tell two integers apart that are the same once brought into the range of a byte. -/
theorem clip_congr {m n : Int} (h : max 0 (min 255 m) = max 0 (min 255 n)) : clip m = clip n := by
  rw [← toNat_clip, ← toNat_clip, Int.natCast_inj] at h
  exact BitVec.eq_of_toNat_eq h

theorem shiftRight_eight (n : Int) : n >>> 8 = n / 256 :=
  (Int.shiftRight_natCast_right n 8).trans (Int.shiftRight_eq_div_pow n 8)

theorem toNat_channel (sum : Int) : ((channel sum).toNat : Int) = max 0 (min 255 (sum / 256)) := by
  rw [channel, toNat_clip, shiftRight_eight]

/-- The truncated quotient is the floor, except for some negative sums, and those `clip` sends to zero either way. -/
theorem clip_tdiv (n : Int) : clip (Int.tdiv n 256) = clip (n / 256) := by
  apply clip_congr
  rw [Int.tdiv_eq_ediv, Int.sign_eq_one_of_pos (by decide : (0 : Int) < 256)]
  split <;> omega

/-! ## The packed colour (rule R208) -/

/-- Above its lowest byte a word has the bytes of what stands there. -/
theorem extractLsb'_append_byte {n : Nat} (high : BitVec n) (low : Byte) (start : Nat) :
    (high ++ low).extractLsb' (start + 8) 8 = high.extractLsb' start 8 := by
  rw [BitVec.extractLsb'_append_eq_of_le (by omega), Nat.add_sub_cancel]

theorem extractLsb'_packColor (r g b : Byte) :
    (packColor r g b).extractLsb' 0 8 = r ∧ (packColor r g b).extractLsb' 8 8 = g ∧
    (packColor r g b).extractLsb' 16 8 = b ∧ (packColor r g b).extractLsb' 24 8 = 0xFF#8 :=
  ⟨BitVec.extractLsb'_append_eq_right,
   (extractLsb'_append_byte _ r 0).trans BitVec.extractLsb'_append_eq_right,
   (extractLsb'_append_byte _ r 8).trans
    ((extractLsb'_append_byte _ g 0).trans BitVec.extractLsb'_append_eq_right),
   (extractLsb'_append_byte _ r 16).trans
    ((extractLsb'_append_byte _ g 8).trans BitVec.extractLsb'_append_eq_left)⟩

theorem packColor_white : packColor 255#8 255#8 255#8 = 0xFFFFFFFF#32 := by decide

/-- Settles O27, by the packed word of white. -/
theorem defaultColourIsOpaqueWhite : Obligations.DefaultColourIsOpaqueWhite := by
  refine fun s => ⟨rfl, fun hr hg hb => ?_⟩
  rw [exec, execPackRgba, hr, hg, hb, packColor_white]
  rfl

/-- Settles O33: the word is `packColor`, read byte by byte. -/
theorem packPlacesTheChannels : Obligations.PackPlacesTheChannels :=
  fun s => ⟨packColor s.px.r s.px.g s.px.b, rfl, extractLsb'_packColor s.px.r s.px.g s.px.b⟩

/-! ## YUV2RGB (rules R206, R207 and R209) -/

/-- Settles O31: each channel is its sum, shifted and clipped. -/
theorem yuvConversionFormulas : Obligations.YuvConversionFormulas :=
  fun _ => ⟨_, _, _, rfl, toNat_channel _, toNat_channel _, toNat_channel _⟩

/-- Settles O32: the sums are linear in bytes, and `clip_tdiv` is about the quotient that the shift gives. -/
theorem colourSumsAndShiftLaws : Obligations.ColourSumsAndShiftLaws := by
  refine ⟨fun y u v => ?_, fun n => ⟨?_, ?_⟩⟩
  · have hy := y.isLt
    have hu := u.isLt
    have hv := v.isLt
    simp only [redSum, greenSum, blueSum, centred]
    omega
  · rw [shiftRight_eight, Int.fdiv_eq_ediv_of_nonneg n (by decide)]
  · rw [shiftRight_eight, clip_tdiv]

/-- With neutral chroma the three channels are the one that luma alone gives. -/
theorem fusedColor_neutral {y grey : Byte} (h : channel (298 * centred y 16 + 128) = grey) :
    fusedColor y 128#8 128#8 = packColor grey grey grey := by
  have hneutral : centred 128#8 128 = 0 := by decide
  simp [fusedColor, redSum, greenSum, blueSum, hneutral, h]

/-- Settles O34: neutral chroma leaves a grey, which is 255 for luma 235 and 0 for luma 16. -/
theorem greyRoundTrip : Obligations.GreyRoundTrip :=
  ⟨(fusedColor_neutral (by decide)).trans packColor_white,
   (fusedColor_neutral (grey := 0#8) (by decide)).trans (by decide)⟩

/-! ## The fetches (rules R203 to R205) -/

/-- Settles O30: the chroma index has only the halves of the row and the column in it. -/
theorem blockSharesItsChromaPair : Obligations.BlockSharesItsChromaPair := by
  rintro d i j r c rfl rfl
  have hindex : chromaIndex d r c = chromaIndex d (2 * (r / 2)) (2 * (c / 2)) := by
    simp [chromaIndex]
  simp [vAddr, uAddr, hindex]

/-- Settles O28: the address is `lumaAddr`, and one byte is never misaligned. -/
theorem lumaFetchReadsTheByte : Obligations.LumaFetchReadsTheByte := by
  intro s a
  refine ⟨fun habsent => congrArg _ (readThen_absent (Nat.mod_one a) habsent),
    fun hadmitted => ⟨fun hunwritten => ?_, ?_⟩⟩
  · rw [← ofNat_readBytes_one]
    exact congrArg _ (readThen_byte_clean hadmitted hunwritten)
  · obtain ⟨v, f, hread⟩ := readThen_admitted (Nat.mod_one a) hadmitted
    exact ⟨BitVec.ofNat 8 v, f, congrArg _ hread⟩

/-- The second read of CHROMA_FETCH, of V, once the first has given `u`. -/
def fetchChromaV (u : Nat) (t : State) : State :=
  readThen (vAddr t.run.desc t.run.r.toNat t.run.c.toNat) 1
    (fun v q => q.setPx { q.px with u := BitVec.ofNat 8 u, v := BitVec.ofNat 8 v }) t

theorem exec_chromaFetch (s : State) : exec .chromaFetch s =
    .next (readThen (uAddr s.run.desc s.run.r.toNat s.run.c.toNat) 1 fetchChromaV s) := rfl

/-- Settles O29: the addresses are `uAddr` and the next, and the second read starts from the state that the first
leaves, where only the count of free values may differ. -/
theorem chromaFetchReadsThePair : Obligations.ChromaFetchReadsThePair := by
  intro s e a
  have hfirst := readThen_admitted (use := fetchChromaV) (s := s) (Nat.mod_one a)
  rw [exec_chromaFetch]
  refine ⟨fun habsent => congrArg _ (readThen_absent (Nat.mod_one a) habsent), fun hu habsent => ?_,
    fun hu hv => ⟨fun hunwritten hunwritten' => ?_, ?_⟩⟩
  · obtain ⟨u, f, hread⟩ := hfirst hu
    exact ⟨f, congrArg _ (hread.trans (readThen_absent (Nat.mod_one (a + 1)) habsent))⟩
  · rw [← ofNat_readBytes_one, ← ofNat_readBytes_one]
    exact congrArg _ ((readThen_byte_clean hu hunwritten).trans (readThen_byte_clean hv hunwritten'))
  · obtain ⟨u, f, hread⟩ := hfirst hu
    obtain ⟨v, g, hread'⟩ := readThen_admitted (s := s.setFree f) (Nat.mod_one (a + 1)) hv
    exact ⟨BitVec.ofNat 8 u, BitVec.ofNat 8 v, g, congrArg _ (hread.trans hread')⟩

end Sys2Proof.Machine
end

section
/-! PROOFS. The stage EMIT (44_emit.md): where it stops at a fault, what it leaves alone in every case, and the entry it
stores where nothing faults (rules R230 and R249). -/

namespace Sys2Proof.Safety

open Sys2Proof.Machine

/-! ## A first write that faults (rules R245, R248 and R249) -/

theorem storeWords_cons_misaligned {a : Nat} (v : Word) (rest : List (Nat × Word)) (s : State)
    (hmisaligned : a % 4 ≠ 0) : storeWords ((a, v) :: rest) s = raise .misaligned s := by
  simp [storeWords, engineWrite, hmisaligned]

theorem storeWords_cons_absent {a : Nat} (v : Word) (rest : List (Nat × Word)) {s : State} (haligned : a % 4 = 0)
    (habsent : admitted s.platform .write a 4 = false) :
    storeWords ((a, v) :: rest) s = raise .accessFault s := by
  simp [storeWords, engineWrite, haligned, habsent]

/-- EMIT leaves what the storing of its four words leaves. -/
theorem exec_emit_eq_next {s t : State} (h : storeWords (entryWrites s) s = t) : exec .emit s = .next t :=
  congrArg Host.Outcome.next h

/-- Settles O38: each word that goes through leaves the later words to be stored over the memory it made, and the first
of them to fault stops there. -/
theorem emitStopsAtItsFirstFault : Obligations.EmitStopsAtItsFirstFault := by
  intro s p q one two three
  refine ⟨fun hp => exec_emit_eq_next (storeWords_cons_misaligned _ _ s hp),
    fun hp habsent => exec_emit_eq_next (storeWords_cons_absent _ _ hp habsent), fun honce hp hx => ?_⟩
  have hp4 : (p + 4) % 4 = 0 := by omega
  have hp8 : (p + 8) % 4 = 0 := by omega
  have afterX : storeWords (entryWrites s) s =
      storeWords [(p + 4, s.px.y), (p + 8, s.px.z), (q, s.px.w)] (s.setMem one) :=
    storeWords_cons_clean hp hx fun i hi => honce (p + i) (by omega)
  have afterY (hy : admitted s.platform .write (p + 4) 4 = true) : storeWords (entryWrites s) s =
      storeWords [(p + 8, s.px.z), (q, s.px.w)] (s.setMem two) :=
    afterX.trans (storeWords_cons_clean hp4 hy fun i hi => honce (p + 4 + i) (by omega))
  have afterZ (hy : admitted s.platform .write (p + 4) 4 = true) (hz : admitted s.platform .write (p + 8) 4 = true) :
      storeWords (entryWrites s) s = storeWords [(q, s.px.w)] (s.setMem three) :=
    (afterY hy).trans (storeWords_cons_clean hp8 hz fun i hi => honce (p + 8 + i) (by omega))
  refine ⟨fun habsent => exec_emit_eq_next (afterX.trans ?_),
    fun hy habsent => exec_emit_eq_next ((afterY hy).trans ?_),
    fun hy hz => ⟨fun hq => exec_emit_eq_next ((afterZ hy hz).trans ?_),
      fun hq habsent => exec_emit_eq_next ((afterZ hy hz).trans ?_)⟩⟩
  · exact storeWords_cons_absent _ _ hp4 habsent
  · exact storeWords_cons_absent _ _ hp8 habsent
  · exact storeWords_cons_misaligned _ _ _ hq
  · exact storeWords_cons_absent _ _ hq habsent

/-! ## The frame in every case (rules R232 and R234) -/

/-- The engine's writes neither use nor change a working value. -/
theorem storeWords_px (ws : List (Nat × Word)) (s : State) : (storeWords ws s).px = s.px := by
  have hsame : storeWords ws s = (storeWords ws s).setPx s.px := storeWords_setPx ws s s.px
  rw [hsame, State.setPx_px]

/-- Settles O37: EMIT is a stage, and the one that stores changes no working value. -/
theorem emitTouchesOnlyItsEntry : Obligations.EmitTouchesOnlyItsEntry := by
  intro s p q hwf
  have hstage : StageOnly s (storeWords (entryWrites s) s) := StageOnly.storeWords fun _ hw => hw
  have hframe := hstage.frame
  rw [storeWords_px] at hframe
  exact ⟨_, exec_emit_eq_next rfl, hframe, hstage.status, hstage.wf hwf,
    fun a hp hq => hstage.outside hwf a (not_or.mpr ⟨hp, hq⟩)⟩

/-! ## The entry stored (rules R74 to R76) -/

/-- EMIT's writes stand where the next entry's do, whatever the working values are. -/
theorem map_fst_entryWrites (s : State) : (entryWrites s).map Prod.fst = (nextEntry s).map Prod.fst := by
  simp [entryWrites, nextEntry, pixelEntry]

/-- What holds of the addresses of the next entry holds of those EMIT writes at. -/
theorem forall_mem_entryWrites {s : State} (P : Nat → Prop) (h : ∀ w ∈ nextEntry s, P w.1) :
    ∀ w ∈ entryWrites s, P w.1 := by
  rwa [← List.forall_mem_map (P := P), map_fst_entryWrites, List.forall_mem_map]

theorem WritesClean.entryWrites_wordsApart {s : State} (h : WritesClean s.platform s.run) :
    (entryWrites s).Pairwise WordsApart := by
  have hpairs : ((nextEntry s).map Prod.fst).Pairwise fun a b => a + 4 ≤ b ∨ b + 4 ≤ a :=
    List.pairwise_map.mpr h.wordsApart
  rw [← map_fst_entryWrites] at hpairs
  exact hpairs.of_map Prod.fst fun _ _ h => h

/-- Where no write faults, EMIT stores the words of the entry and nothing else. -/
theorem WritesClean.exec_emit {s : State} (h : WritesClean s.platform s.run) (hwf : Memory.wf s.mem = true) :
    ∃ m, exec .emit s = .next (s.setMem m) ∧ (∀ w ∈ entryWrites s, HoldsWord m w.1 w.2) ∧
      ∀ x, ¬entryByte s.run x → Memory.read m x = Memory.read s.mem x := by
  have hspace := forall_mem_entryWrites (· + 4 ≤ 2 ^ 32) h.inSpace
  have hstore : storeWords (entryWrites s) s = s.setMem (Memory.writeWords s.mem (entryWrites s)) :=
    storeWords_clean (forall_mem_entryWrites (· % 4 = 0) h.aligned)
      (forall_mem_entryWrites (Machine.admitted s.platform .write · 4 = true) h.admitted) fun w hw i hi =>
        h.once _ (storedByte_entryWrites ⟨w, hw, by omega, by omega⟩)
  exact ⟨_, exec_emit_eq_next hstore, Memory.read_writeWords_mem hwf hspace h.entryWrites_wordsApart,
    fun x hx => Memory.read_writeWords_other hwf hspace fun w hw hin => hx (storedByte_entryWrites ⟨w, hw, hin⟩)⟩

/-- Settles O36: the four writes are clean, so each word is stored as given. -/
theorem emitStoresTheEntry : Obligations.EmitStoresTheEntry := by
  intro s p q hwf hp hq hx hy hz hcolor hapart honce
  have hclean : WritesClean s.platform s.run := ⟨hp, hq, hx, hy, hz, hcolor, hapart, honce⟩
  obtain ⟨m, hexec, hholds, hothers⟩ := hclean.exec_emit hwf
  simp only [entryWrites, List.forall_mem_cons, List.not_mem_nil, false_implies, implies_true, and_true] at hholds
  obtain ⟨holdsX, holdsY, holdsZ, holdsColor⟩ := hholds
  exact ⟨s.setMem m, hexec, rfl, holdsX, holdsY, holdsZ, holdsColor,
    fun a hpoint hentry => hothers a (not_or.mpr ⟨hpoint, hentry⟩)⟩

end Sys2Proof.Safety
end

section
/-! PROOFS. The exceptions (60_exceptions.md): taking a fault (rule R240), the faults of host writes (rules R242 and
R243), the error state (rule R250), and a fault in a pixel step (rules R248 and R249). -/

namespace Sys2Proof.Machine

theorem WroteOnly.platform {inside : Nat → Prop} {s t : State} (h : WroteOnly inside s t) :
    t.platform = s.platform := by
  rw [h.frame]
  rfl

end Sys2Proof.Machine

namespace Sys2Proof.Safety

open Sys2Proof.Machine

/-! ## Taking a fault (rules R240 and R241) -/

theorem raise_of_no_err {s : State} (k : FaultCause) (herr : s.status.err = false) :
    raise k s = { s with status := { s.status with err := true, cause := causeCode k, busy := false } } := by
  simp [raise, State.setStatus, statusFault, herr]

theorem raise_of_err {s : State} (k : FaultCause) (herr : s.status.err = true) :
    raise k s = { s with status := { s.status with busy := false } } := by
  simp [raise, State.setStatus, statusFault, herr]

/-- Settles O21: the codes, and the two cases of `statusFault`. -/
theorem faultRecordsTheFirstCause : Obligations.FaultRecordsTheFirstCause :=
  ⟨⟨rfl, rfl, rfl, rfl, rfl⟩, fun k _ => ⟨raise_of_no_err k, raise_of_err k⟩⟩

/-- Settles O11: a command is an effect behind the acceptance of a host write, and a stage is stage-like. -/
theorem everyInstructionAnswersANextState : Obligations.EveryInstructionAnswersANextState := by
  intro i s
  cases hi : i.isCommand with
  | true => exact ⟨_, exec_command hi s⟩
  | false =>
    obtain ⟨t, ht, -⟩ := exec_stage hi s
    exact ⟨t, ht⟩

/-! ## The faults of host writes (rules R242 and R243) -/

theorem decode_reserved {w : Word} (h : w >>> 2 ≠ 0#32) : decode w = .error .reservedBitsSet := by
  refine if_neg (rsvField_ne_zero ?_)
  by_contra hsmall
  refine h (BitVec.eq_of_toNat_eq ?_)
  rw [BitVec.toNat_ushiftRight, Nat.shiftRight_eq_div_pow, BitVec.toNat_zero]
  omega

/-- Settles O12: an idle block accepts the write, and a word that does not decode is `BadCmd`. -/
theorem illegalCommandWordFaults : Obligations.IllegalCommandWordFaults := by
  intro s w hidle hreserved
  have heffect : writeEffect .ctrl w = raise .badCmd := by simp only [writeEffect, decode_reserved hreserved]
  rw [writeReg_eq, whenIdle_idle hidle.1 hidle.2, heffect, raise_of_idle hidle]
  rfl

/-- Settles O13: every host write is an effect behind the acceptance, which a busy block denies. -/
theorem writeWhileBusyStopsTheRun : Obligations.WriteWhileBusyStopsTheRun := by
  intro s r w herr hbusy
  rw [writeReg_eq, whenIdle_busy herr hbusy, raise_busyWrite_of_no_err herr]

/-! ## The error state (rule R250) -/

/-- In the error state a turn changes neither the flags nor a register, the context or the run: no run is busy that the
engine could go on with, the host's writes are ignored, and a second fault is not recorded. -/
theorem TurnResult.kept_of_err {s t : State} (hres : TurnResult s t) (herr : s.status.err = true)
    (hbusy : s.status.busy = false) :
    t.status = s.status ∧ t.cfg = s.cfg ∧ t.ctx = s.ctx ∧ t.desc = s.desc ∧ t.used = s.used ∧ t.run = s.run := by
  have hidle : ¬Idle s := fun h => by simp [h.1] at herr
  have hrun : ¬s.status.busy = true := by simp [hbusy]
  cases hres with
  | unchanged | memoryWritten wf | valueRead v f | endSeen notBusy v f => exact ⟨rfl, rfl, rfl, rfl, rfl, rfl⟩
  | writeFaulted k =>
    rw [raise_of_err k herr, ← hbusy]
    exact ⟨rfl, rfl, rfl, rfl, rfl, rfl⟩
  | pixelDone busy | pixelFaulted busy | completed busy => exact absurd busy hrun
  | stored idle | created idle | createFailed idle | destroyed idle | launched idle => exact absurd idle hidle

/-- Settles O22: by the invariant no run is busy in the error state, and no turn but the reset input changes it. -/
theorem onlyResetLeavesTheErrorState : Obligations.OnlyResetLeavesTheErrorState := by
  intro s t hinv herr hreset hstep
  have hbusy : s.status.busy = false :=
    Bool.eq_false_iff.mpr fun hrun => by simp [hinv.busyNotErr hrun] at herr
  exact (step_result_of_no_reset hreset hstep).kept_of_err herr hbusy

/-! ## Which accesses are admitted (rule R77) -/

theorem admitted_iff_forall_byteAdmitted (p : Platform) (k : AccessKind) (a n : Nat) :
    admitted p k a n = true ↔ ∀ i, i < n → byteAdmitted p k (a + i) = true := by
  induction n generalizing a with
  | zero => simp [admitted]
  | succ n ih =>
    have hnext (i : Nat) : a + 1 + i = a + (i + 1) := by omega
    rw [Nat.forall_lt_succ_left']
    simp [admitted, ih, hnext]

theorem byteAdmitted_iff (p : Platform) (k : AccessKind) (a : Nat) :
    byteAdmitted p k a = true ↔
      a < 2 ^ 32 ∧ ¬(unprojBase p ≤ a ∧ a < unprojBase p + 128) ∧
        ∃ g ∈ p.regions, g.base ≤ a ∧ a < g.base + g.size ∧
          (k = .read → g.readable = true) ∧ (k = .write → g.writable = true) := by
  cases k <;> simp [byteAdmitted, inBlock, regionAdmits, and_assoc, imp_iff_not_or]

/-! ## The reads of a pixel (rules R79 and R248) -/

/-- The reads of a stage on the pixel that the counters name, in their order (rules R171, R203 and R204). -/
def stageAccesses (u : Run) : Instr → List Access
  | .depthFetch => [⟨.read, depthSampleAddr u.desc u.r.toNat u.c.toNat, 2⟩]
  | .lumaFetch => [⟨.read, lumaAddr u.desc u.r.toNat u.c.toNat, 1⟩]
  | .chromaFetch => [⟨.read, uAddr u.desc u.r.toNat u.c.toNat, 1⟩, ⟨.read, vAddr u.desc u.r.toNat u.c.toNat, 1⟩]
  | _ => []

/-- Where there is a fault it is taken. -/
def takeFault : Option FaultCause → State → State
  | none, s => s
  | some k, s => raise k s

/-- The reads `xs`, and what is computed from their values: the first fault is taken, and beside it only the count of
free values and the working values change. -/
def Reads (xs : List Access) (s t : State) : Prop :=
  ∃ f v, t = takeFault (firstFault s.platform xs) ((s.setFree f).setPx v)

theorem Reads.setPx (s : State) (v : Pixel) : Reads [] s (s.setPx v) := ⟨s.free, v, rfl⟩

theorem Reads.readThen {a n : Nat} {use : Nat → State → State} {xs : List Access} {s : State}
    (h : ∀ x f, Reads xs (s.setFree f) (use x (s.setFree f))) :
    Reads (⟨.read, a, n⟩ :: xs) s (readThen a n use s) := by
  simp only [Machine.readThen, engineRead_eq]
  cases hfault : accessFaultOf s.platform ⟨.read, a, n⟩ with
  | some k =>
    refine ⟨s.free, s.px, ?_⟩
    rw [firstFault_cons_fault xs hfault]
    rfl
  | none =>
    obtain ⟨f, hf⟩ := fetchBytes_state n a s
    obtain ⟨g, v, huse⟩ := h (fetchBytes n a s).1 f
    refine ⟨g, v, ?_⟩
    rw [firstFault_cons_clean xs hfault]
    simp only [hf]
    exact huse

theorem exec_reads {i : Instr} (hi : i.isCommand = false) (hemit : i ≠ .emit) (s : State) :
    ∃ t, exec i s = .next t ∧ Reads (stageAccesses s.run i) s t := by
  cases i with
  | nop | create | unproject | destroy => cases hi
  | emit => exact absurd rfl hemit
  | depthFetch | lumaFetch => exact ⟨_, rfl, .readThen fun _ _ => .setPx _ _⟩
  | chromaFetch => exact ⟨_, rfl, .readThen fun _ _ => .readThen fun _ _ => .setPx _ _⟩
  | linearise | backproject | colorDefault | yuv2rgb | packRgba => exact ⟨_, rfl, .setPx _ _⟩

/-- Over stages that store nothing and then EMIT, the first fault of the reads ends the pixel; where there is none, what
is left is EMIT. -/
theorem pixelStepOver_reads {stages : List Instr} (hstages : ∀ i ∈ stages, i.isCommand = false ∧ i ≠ .emit)
    {s : State} (hbusy : s.status.busy = true) :
    ∃ f v, pixelStepOver (stages ++ [.emit]) s =
      match firstFault s.platform (stages.flatMap (stageAccesses s.run)) with
      | some k => .next ((raise k (s.setFree f)).setPx Pixel.clear)
      | none => pixelStepOver [.emit] ((s.setFree f).setPx v) := by
  induction stages generalizing s with
  | nil => exact ⟨s.free, s.px, rfl⟩
  | cons i rest ih =>
    rw [List.forall_mem_cons] at hstages
    obtain ⟨⟨hi, hemit⟩, hrest⟩ := hstages
    obtain ⟨_, hexec, f, v, rfl⟩ := exec_reads hi hemit s
    rw [List.cons_append, pixelStepOver_cons hexec, List.flatMap_cons, firstFault_append]
    cases firstFault s.platform (stageAccesses s.run i) with
    | some k => exact ⟨f, v, rfl⟩
    | none =>
      obtain ⟨g, w, hrun⟩ := ih hrest (s := (s.setFree f).setPx v) hbusy
      refine ⟨g, w, ?_⟩
      simp only [takeFault, State.setPx_status, State.setFree_status, hbusy, if_true, Option.none_or]
      exact hrun

theorem flatMap_stageAccesses (u : Run) :
    (pixelStages u.desc.hasColor).dropLast.flatMap (stageAccesses u) = pixelReads u.desc u.r.toNat u.c.toNat := by
  cases hcolor : u.desc.hasColor <;> simp [pixelStages, stageAccesses, pixelReads, hcolor]

/-- A pixel step up to its writes. -/
theorem pixelStep_reads {s : State} (hbusy : s.status.busy = true) :
    ∃ f v, pixelStep s =
      match firstFault s.platform (pixelReads s.run.desc s.run.r.toNat s.run.c.toNat) with
      | some k => .next ((raise k (s.setFree f)).setPx Pixel.clear)
      | none => pixelStepOver [.emit] ((s.setFree f).setPx v) := by
  rw [pixelStep, pixelStages_eq_append_emit, ← flatMap_stageAccesses]
  exact pixelStepOver_reads (fun i hi =>
    ⟨pixelStages_isStage _ i (List.dropLast_subset _ hi), ne_emit_of_mem_dropLast _ i hi⟩) hbusy

/-! ## The writes of a pixel (rules R230, R248 and R249) -/

/-- The accesses that store words. -/
def wordWrites (ws : List (Nat × Word)) : List Access := ws.map fun w => ⟨.write, w.1, 4⟩

theorem wordWrites_entryWrites (s : State) : wordWrites (entryWrites s) = pixelWrites s.run.desc s.run.n.toNat := rfl

theorem storedByte_cons {w : Nat × Word} {ws : List (Nat × Word)} {x : Nat} :
    storedByte (w :: ws) x ↔ (w.1 ≤ x ∧ x < w.1 + 4) ∨ storedByte ws x := by
  simp [storedByte]

section
variable {w : Nat × Word} {rest : List (Nat × Word)} {s : State}

theorem storeWords_cons_fault {k : FaultCause} (h : accessFaultOf s.platform ⟨.write, w.1, 4⟩ = some k) :
    storeWords (w :: rest) s = raise k s := by
  simp [storeWords, engineWrite_eq, h]

theorem storeWords_cons_through (h : accessFaultOf s.platform ⟨.write, w.1, 4⟩ = none) :
    WroteOnly (fun x => w.1 ≤ x ∧ x < w.1 + 4) s (putWord w.1 w.2 s) ∧
    storeWords (w :: rest) s = storeWords rest (putWord w.1 w.2 s) := by
  have hadmitted : admitted s.platform .write w.1 4 = true := admitted_of_accessFaultOf_none h
  exact ⟨putWord_wrote (admitted_inSpace hadmitted (i := 3) (by omega)), by simp [storeWords, engineWrite_eq, h]⟩

end

/-- Where no write faults, every word is stored. -/
theorem storeWords_through {ws : List (Nat × Word)} {s : State} (h : firstFault s.platform (wordWrites ws) = none) :
    WroteOnly (storedByte ws) s (storeWords ws s) := by
  induction ws generalizing s with
  | nil => exact .refl _ s
  | cons w rest ih =>
    cases hw : accessFaultOf s.platform ⟨.write, w.1, 4⟩ with
    | some k => simp [wordWrites, firstFault_cons_fault _ hw] at h
    | none =>
      obtain ⟨hput, hstore⟩ := storeWords_cons_through (rest := rest) hw
      have hrest := (firstFault_cons_clean (wordWrites rest) hw).symm.trans h
      rw [hstore]
      exact (hput.mono fun x hx => storedByte_cons.mpr (.inl hx)).trans
        ((ih (hput.platform ▸ hrest)).mono fun x hx => storedByte_cons.mpr (.inr hx))

/-- The first write that faults raises its fault, with at most the words before the last one stored. -/
theorem storeWords_faults {ws : List (Nat × Word)} {k : FaultCause} {s : State}
    (h : firstFault s.platform (wordWrites ws) = some k) :
    ∃ t, WroteOnly (storedByte ws.dropLast) s t ∧ storeWords ws s = raise k t := by
  induction ws generalizing s with
  | nil => cases h
  | cons w rest ih =>
    cases hw : accessFaultOf s.platform ⟨.write, w.1, 4⟩ with
    | some j =>
      obtain rfl : j = k := Option.some.inj ((firstFault_cons_fault (wordWrites rest) hw).symm.trans h)
      exact ⟨s, .refl _ s, storeWords_cons_fault hw⟩
    | none =>
      obtain ⟨hput, hstore⟩ := storeWords_cons_through (rest := rest) hw
      have hrest := (firstFault_cons_clean (wordWrites rest) hw).symm.trans h
      have hne : rest ≠ [] := by
        rintro rfl
        cases hrest
      obtain ⟨t, hwrote, hfault⟩ := ih (hput.platform ▸ hrest)
      rw [List.dropLast_cons_of_ne_nil hne]
      exact ⟨t, (hput.mono fun x hx => storedByte_cons.mpr (.inl hx)).trans
        (hwrote.mono fun x hx => storedByte_cons.mpr (.inr hx)), hstore.trans hfault⟩

/-- The bytes of the point of the output entry that the counters name (rule R74). -/
def pointByte (u : Run) (x : Nat) : Prop :=
  pointAddr u.desc u.n.toNat ≤ x ∧ x < pointAddr u.desc u.n.toNat + 12

/-- The last word of an entry is the colour; those before it are the point. -/
theorem storedByte_entryWrites_dropLast {s : State} {x : Nat} (h : storedByte (entryWrites s).dropLast x) :
    pointByte s.run x := by
  obtain ⟨w, hw, hx⟩ := h
  simp only [entryWrites, List.dropLast_cons_cons, List.dropLast_singleton, List.mem_cons,
    List.not_mem_nil, or_false] at hw
  unfold pointByte
  rcases hw with rfl | rfl | rfl <;> simp only at hx <;> omega

theorem storeWords_entry_through {s : State}
    (h : firstFault s.platform (pixelWrites s.run.desc s.run.n.toNat) = none) :
    WroteOnly (entryByte s.run) s (storeWords (entryWrites s) s) :=
  (storeWords_through (wordWrites_entryWrites s ▸ h)).mono fun _ => storedByte_entryWrites

theorem storeWords_entry_faults {s : State} {k : FaultCause}
    (h : firstFault s.platform (pixelWrites s.run.desc s.run.n.toNat) = some k) :
    ∃ t, WroteOnly (pointByte s.run) s t ∧ storeWords (entryWrites s) s = raise k t := by
  rw [← wordWrites_entryWrites] at h
  obtain ⟨t, hwrote, hfault⟩ := storeWords_faults h
  exact ⟨t, hwrote.mono fun _ => storedByte_entryWrites_dropLast, hfault⟩

/-! ## A fault in a pixel step (rules R240, R248 and R249) -/

/-- What a pixel step leaves that takes the fault `k`: memory `m`, the count `f` of free values, no working value. -/
def afterFault (k : FaultCause) (s : State) (m : List Host.Cell) (f : Nat) : State :=
  (raise k ((s.setMem m).setFree f)).setPx Pixel.clear

theorem finishPixel_raise (k : FaultCause) (s : State) : finishPixel (raise k s) = (raise k s).setPx Pixel.clear := rfl

section
variable {s : State} (hbusy : s.status.busy = true)
include hbusy

/-- A read that faults ends the pixel before anything is stored. -/
theorem pixelStep_read_fault {k : FaultCause}
    (h : firstFault s.platform (pixelReads s.run.desc s.run.r.toNat s.run.c.toNat) = some k) :
    ∃ f, pixelStep s = .next (afterFault k s s.mem f) := by
  obtain ⟨f, v, hstep⟩ := pixelStep_reads hbusy
  rw [h] at hstep
  exact ⟨f, hstep⟩

/-- A write that faults ends the pixel with the colour not stored. -/
theorem pixelStep_write_fault {k : FaultCause}
    (hreads : firstFault s.platform (pixelReads s.run.desc s.run.r.toNat s.run.c.toNat) = none)
    (hwrites : firstFault s.platform (pixelWrites s.run.desc s.run.n.toNat) = some k) (hwf : Memory.wf s.mem = true) :
    ∃ m f, pixelStep s = .next (afterFault k s m f) ∧ Memory.wf m = true ∧
      ∀ a, ¬pointByte s.run a → Memory.read m a = Memory.read s.mem a := by
  obtain ⟨f, v, hstep⟩ := pixelStep_reads hbusy
  simp only [hreads, pixelStepOver_emit] at hstep
  obtain ⟨t, hwrote, hfault⟩ := storeWords_entry_faults (s := (s.setFree f).setPx v) hwrites
  refine ⟨t.mem, t.free, ?_, hwrote.wf hwf, hwrote.outside hwf⟩
  rw [hstep, hfault, finishPixel_raise, hwrote.frame]
  rfl

theorem pixelStep_through
    (hreads : firstFault s.platform (pixelReads s.run.desc s.run.r.toNat s.run.c.toNat) = none)
    (hwrites : firstFault s.platform (pixelWrites s.run.desc s.run.n.toNat) = none) :
    ∃ t, pixelStep s = .next t ∧ t.status = s.status ∧ t.run = advanceRun s.run := by
  obtain ⟨f, v, hstep⟩ := pixelStep_reads hbusy
  simp only [hreads, pixelStepOver_emit] at hstep
  have hframe := (storeWords_entry_through (s := (s.setFree f).setPx v) hwrites).frame
  refine ⟨_, hstep, ?_, ?_⟩
  · rw [finishPixel_status, hframe]
    rfl
  · rw [hframe]
    simp [finishPixel, hbusy]

end

/-- Settles O42: the reads come first, so a fault of theirs leaves memory alone, and one of the writes leaves all but
the words before it alone. -/
theorem faultInAPixelStopsTheRunPrecisely : Obligations.FaultInAPixelStopsTheRunPrecisely := by
  refine ⟨fun p k a n => ?_, fun s hmoves hbusy hmore hwf => ?_⟩
  · simp only [admitted_iff_forall_byteAdmitted, byteAdmitted_iff]
  · intro reads writes _
    have hbusy' : (s.setTurns s.turns.tail).status.busy = true := hbusy
    rw [firstFault_append, step_eq_pixelStep hmoves hbusy hmore]
    cases hreads : firstFault s.platform reads with
    | some j =>
      refine ⟨fun k hk => ?_, nofun⟩
      obtain rfl : j = k := Option.some.inj hk
      obtain ⟨f, hstep⟩ := pixelStep_read_fault hbusy' hreads
      exact ⟨s.mem, f, hstep, fun _ => rfl, hwf, fun _ _ => rfl⟩
    | none =>
      refine ⟨fun k hk => ?_, fun hnone => ?_⟩
      · obtain ⟨m, f, hstep, hwf', hothers⟩ := pixelStep_write_fault hbusy' hreads hk hwf
        exact ⟨m, f, hstep, nofun, hwf', hothers⟩
      · obtain ⟨t, hstep, hstatus, hrun⟩ := pixelStep_through hbusy' hreads hnone
        exact ⟨t, hstep, hstatus, by rw [hrun, advanceRun_n]; rfl⟩

end Sys2Proof.Safety
end

section
/-! PROOFS. The reset input (70_reset_and_hazards.md rules R270 and R271). -/

namespace Sys2Proof.Machine

@[simp] theorem resetBlock_status (s : State) : (resetBlock s).status = Status.reset := rfl
@[simp] theorem resetBlock_used (s : State) : (resetBlock s).used = 0#32 := rfl
@[simp] theorem resetBlock_mem (s : State) : (resetBlock s).mem = s.mem := rfl
@[simp] theorem resetBlock_platform (s : State) : (resetBlock s).platform = s.platform := rfl
@[simp] theorem resetBlock_turns (s : State) : (resetBlock s).turns = s.turns := rfl

/-- While no run is busy there is no pixel to cut off. -/
theorem partialPixel_of_not_busy (written : Nat) {s : State} (h : s.status.busy = false) :
    partialPixel written s = s := by
  simp [partialPixel, h]

theorem readReg_status_of_reset {s : State} (h : s.status = Status.reset) : (readReg .status s).1 = 0#32 := by
  simp only [readReg, h]
  decide

end Sys2Proof.Machine

namespace Sys2Proof.Safety

open Sys2Proof.Machine

/-- Settles O23: the reset of the block sets the registers, whatever it cut off, and leaves memory to the cut-off pixel,
which is stage-like and so writes in its own entry only. -/
theorem resetClearsStatusAndKeepsMemory : Obligations.ResetClearsStatusAndKeepsMemory := by
  intro written s hwf
  have hcut := partialPixel_stageOnly written s
  refine ⟨resetTurn written s, rfl, readReg_status_of_reset (resetBlock_status _), resetBlock_used _,
    (resetBlock_platform _).trans hcut.platform, (resetBlock_turns _).trans hcut.turns, fun hidle => ?_,
    fun a hpoint hcolor => ?_⟩
  · rw [resetTurn, resetBlock_mem, partialPixel_of_not_busy written hidle]
  · have hentry : ¬entryByte s.run a := not_or.mpr ⟨hpoint, hcolor⟩
    rw [resetTurn, resetBlock_mem, hcut.outside hwf a hentry]

end Sys2Proof.Safety
end
